-- ==== Sys2Proof/Word.lean ====
section
/-! DEFINITION. The word types of the block (00_scope.md R9): unsigned bit vectors of a stated width. -/

namespace Sys2Proof

/-- One byte of the DMA physical address space. -/
abbrev Byte := BitVec 8

/-- A 32-bit register (10_state.md R13). -/
abbrev Word := BitVec 32

/-- A bus value: "A bus value is 64 bits wide" (R9). -/
abbrev DWord := BitVec 64

/-- A byte address of the DMA physical address space (R30; decision D5). -/
abbrev Addr := BitVec 64

/-- A byte offset in the register window: the low 12 bits of a bus address (R30, R56). -/
abbrev Offset := BitVec 12

end Sys2Proof
end

