-- ==== Sys2Proof/Config.lean ====
section
/-! DEFINITION. What is fixed when the device is built: the parameters of 00_scope.md R7, the literals of R12 (each one
named constant, 93_implementation_defined.md I-10), and the values the spec leaves open. -/

namespace Sys2Proof

/-- What a trigger does when CONTROLS[7:0] is 0 (R7, 42_transfer_engine.md R99; decision D3). -/
inductive ZeroChunkPolicy where
  | hang
  | clamp1
  | reject
  deriving DecidableEq, Repr

/-- Whether 1- and 2-byte accesses reach the register decode (R7, 20_memory.md R36; decision D4). -/
inductive NarrowAccess where
  | refuse
  | literal
  deriving DecidableEq, Repr

/-- The construction-time parameters that a rule of the device reads (R7, R13, R28). -/
structure Params where
  /-- BASE, added to SRC_ADDR to form the source address. -/
  base : Addr
  /-- ZERO_CHUNK_POLICY. -/
  zeroChunk : ZeroChunkPolicy
  /-- NARROW_ACCESS. -/
  narrowAccess : NarrowAccess
  deriving DecidableEq, Repr

/-- The default BASE (R7, R28). -/
def Config.defaultBase : Addr := 0x70000000#64

/-- The default parameters (R7): BASE 0x7000_0000, hang, refuse. -/
def Config.defaultParams : Params :=
  { base := Config.defaultBase, zeroChunk := .hang, narrowAccess := .refuse }

/-- Size of the register window in bytes (R7, R30). -/
def Config.windowSize : Nat := 0x1000

/-- The longest chunk, and the size of the transient buffer, in bytes (R7 `MAX_CHUNK`, `BUFFER_SIZE`; R105). -/
def Config.maxChunk : Nat := 255

/-- The size of the DMA physical address space: addresses are 64 bits (R7 `ADDR_WIDTH`; decision D5). -/
def Config.addressSpace : Nat := 2 ^ 64

/-- Reset values other than zero (10_state.md R31). -/
def Config.controlsReset : Word := 0x1FFF#32
/-- Reset value of LEN (R31). -/
def Config.lenReset : Word := 0x3FFF#32

/-- `RESET_IRQ_OUT = deassert` (R7): the level reset drives. The spec's own decision D10 (log 16). -/
def Config.resetIrqOut : Bool := false

/-- IRQ_EN bit 1, DONE_EN (R22). -/
def Config.doneEnBit : Nat := 1
/-- IRQ_STA bit 6, PENDING (R23). -/
def Config.pendingBit : Nat := 6
/-- DONE and PENDING together, what a completed transfer ORs into IRQ_STA (42_transfer_engine.md R103). -/
def Config.completionMask : Word := 0x42#32
/-- PENDING alone, the value that collapses to 0 (41_register_write.md R94). -/
def Config.pendingOnly : Word := 0x40#32

/-! The nine defined offsets (30_encoding.md R60). -/

def Config.offStart : Offset := 0x000#12
def Config.offControls : Offset := 0x004#12
def Config.offSrcAddr : Offset := 0x008#12
def Config.offLen : Offset := 0x00C#12
def Config.offDstAddr : Offset := 0x010#12
def Config.offDstAddrHi : Offset := 0x014#12
def Config.offSettings : Offset := 0x018#12
def Config.offIrqEn : Offset := 0x054#12
def Config.offIrqSta : Offset := 0x058#12

/-- The nine defined offsets in one list; every other offset is undefined (R60, R63). -/
def Config.definedOffsets : List Offset :=
  [Config.offStart, Config.offControls, Config.offSrcAddr, Config.offLen, Config.offDstAddr,
   Config.offDstAddrHi, Config.offSettings, Config.offIrqEn, Config.offIrqSta]

/-- FREE VALUE. The byte the memory collaborator holds at an address that nothing has written: any value
(20_memory.md R45, I-8). One unknown byte per address; no body, so nothing can be proved of it. DESIGN CHOICE (log 5). -/
opaque Config.unwrittenByte : Addr → Byte

/-- FREE VALUE. `WINDOW_BASE`, where the register window sits in the system map: OPEN, and "the device never reads"
it (R7, decision D18, log 14). -/
opaque Config.windowBase : Addr

/-- FREE VALUE. `IRQ_LINE_ID`, the interrupt input the line drives: OPEN, never read by the device (R7, decision D18,
log 14). -/
opaque Config.irqLineId : Nat

end Sys2Proof
end

