-- ==== Sys2Proof/Syntax.lean ====
section
/-! DEFINITION. The transactions of 30_encoding.md as data: the encoded form, one constructor of `Instr` per row of
the opcode table, and the spec's own assembler requests and pseudo-instructions (R55, R57, R60, R69, R70). -/

namespace Sys2Proof

/-- The access width, 1, 2, 4 or 8 bytes (R9, R58). -/
inductive Width where
  | w1
  | w2
  | w4
  | w8
  deriving DecidableEq, Repr

/-- Width 1 or 2, what parameter NARROW_ACCESS decides about (R36). -/
def Width.isNarrow : Width → Bool
  | .w1 => true
  | .w2 => true
  | .w4 => false
  | .w8 => false

/-- The direction of a bus transaction with the data word that a Write carries and a Read does not (R57, R67). -/
inductive Access where
  | read
  | write (value : DWord)
  deriving DecidableEq, Repr

/-- A transaction as it is written down: the 16-bit descriptor, and the lane of the 64-bit data word, which has a
meaning only when the descriptor is a Write's (R57, R59). The lane is there for every transaction so that each value
of this type is one (log 2). -/
structure Txn where
  descriptor : BitVec 16
  data : DWord
  deriving DecidableEq, Repr

/-- What a transaction decodes to: one constructor per row of spec/opcode_table.json. -/
inductive Instr where
  /-- RESET: descriptor 0x8000 (R134). -/
  | reset
  /-- RESERVED: EV = 1 and the other 15 bits not all 0 (R64). -/
  | reserved (rest : BitVec 15)
  /-- NARROW.REFUSE: a width-1 or width-2 access under `NARROW_ACCESS = refuse` (R65). -/
  | narrowRefuse (w : Width) (off : Offset) (acc : Access)
  /-- RD.START (R72). -/
  | rdStart (w : Width)
  /-- RD.CONTROLS (R73). -/
  | rdControls (w : Width)
  /-- RD.SRC_ADDR (R74). -/
  | rdSrcAddr (w : Width)
  /-- RD.LEN (R75). -/
  | rdLen (w : Width)
  /-- RD.DST_ADDR.W4: low view (R76). -/
  | rdDstAddrW4
  /-- RD.DST_ADDR.W8: full view (R77). -/
  | rdDstAddrW8
  /-- RD.DST_ADDR.NARROW: full view at width 1 or 2, under `NARROW_ACCESS = literal` (R77). -/
  | rdDstAddrNarrow (w : Width)
  /-- RD.DST_ADDR_HI (R78). -/
  | rdDstAddrHi (w : Width)
  /-- RD.SETTINGS (R79). -/
  | rdSettings (w : Width)
  /-- RD.IRQ_EN (R80). -/
  | rdIrqEn (w : Width)
  /-- RD.IRQ_STA (R81). -/
  | rdIrqSta (w : Width)
  /-- RD.UNDEFINED: a read at an undefined offset (R82). -/
  | rdUndefined (off : Offset) (w : Width)
  /-- WR.START (R85). -/
  | wrStart (w : Width) (value : DWord)
  /-- WR.CONTROLS (R86). -/
  | wrControls (w : Width) (value : DWord)
  /-- WR.SRC_ADDR (R87). -/
  | wrSrcAddr (w : Width) (value : DWord)
  /-- WR.LEN (R88). -/
  | wrLen (w : Width) (value : DWord)
  /-- WR.DST_ADDR.W4: low view (R89). -/
  | wrDstAddrW4 (value : DWord)
  /-- WR.DST_ADDR.W8: full view (R90). -/
  | wrDstAddrW8 (value : DWord)
  /-- WR.DST_ADDR.NARROW: full view at width 1 or 2, under `NARROW_ACCESS = literal` (R90). -/
  | wrDstAddrNarrow (w : Width) (value : DWord)
  /-- WR.DST_ADDR_HI (R91). -/
  | wrDstAddrHi (w : Width) (value : DWord)
  /-- WR.SETTINGS (R92). -/
  | wrSettings (w : Width) (value : DWord)
  /-- WR.IRQ_EN (R93). -/
  | wrIrqEn (w : Width) (value : DWord)
  /-- WR.IRQ_STA: the XOR acknowledge (R94). -/
  | wrIrqSta (w : Width) (value : DWord)
  /-- WR.UNDEFINED: a write at an undefined offset (R95). -/
  | wrUndefined (off : Offset) (w : Width) (value : DWord)
  deriving DecidableEq, Repr

/-- A request of the host, as the entry points of R55 take it and as R69 writes it: `RD<bits>`, `WR<bits>`, `RESET`.
The address is the bus address; the device sees its low 12 bits (R56). -/
inductive Request where
  | read (address : Addr) (w : Width)
  | write (address : Addr) (value : DWord) (w : Width)
  | reset
  deriving DecidableEq, Repr

/-- The pseudo-instructions of R70. -/
inductive Pseudo where
  /-- `SETDST v`. -/
  | setDst (v : DWord)
  /-- `SETDST2 v`. -/
  | setDst2 (v : DWord)
  /-- `CONFIG s, n, d, c`, which "needs 1 ≤ n ≤ 2^32 and 1 ≤ c ≤ 255". -/
  | config (s : Word) (n : Nat) (d : DWord) (c : Nat)
  /-- `ENIRQ`. -/
  | enIrq
  /-- `TRIGGER`. -/
  | trigger
  /-- `ACK v`. -/
  | ack (v : DWord)
  /-- `ACKREAD`, where `r` is the value the read gives. -/
  | ackRead (r : DWord)
  deriving DecidableEq, Repr

/-- One row of spec/opcode_table.json. `condition` is the value of NARROW_ACCESS the row needs, if it names one. -/
structure OpcodeRow where
  mnemonic : String
  pattern : BitVec 16
  mask : BitVec 16
  priority : Nat
  condition : Option NarrowAccess
  deriving DecidableEq, Repr

end Sys2Proof
end

