-- ==== Sys2Proof/WellFormed.lean ====
section
/-! DEFINITION. Which values of `Instr` some transaction stands for, under a value of NARROW_ACCESS (30_encoding.md
R60, R61, R63, R64, R65). -/

namespace Sys2Proof

/-- The width is one the bus admits: 4 or 8, and 1 or 2 under `literal` (R36). -/
def admitted (p : NarrowAccess) (w : Width) : Bool := !w.isNarrow || p == .literal

/-- The offset is none of the nine defined ones (R63). -/
def undefinedOffset (off : Offset) : Bool := !Config.definedOffsets.contains off

/-- Well-formed under `NARROW_ACCESS = p`: the operands are ones the encoding gives this row. -/
def wellFormed (p : NarrowAccess) : Instr → Bool
  | .reset => true
  | .reserved rest => rest != 0#15
  | .narrowRefuse w _ _ => w.isNarrow && p == .refuse
  | .rdStart w => admitted p w
  | .rdControls w => admitted p w
  | .rdSrcAddr w => admitted p w
  | .rdLen w => admitted p w
  | .rdDstAddrW4 => true
  | .rdDstAddrW8 => true
  | .rdDstAddrNarrow w => w.isNarrow && p == .literal
  | .rdDstAddrHi w => admitted p w
  | .rdSettings w => admitted p w
  | .rdIrqEn w => admitted p w
  | .rdIrqSta w => admitted p w
  | .rdUndefined off w => admitted p w && undefinedOffset off
  | .wrStart w _ => admitted p w
  | .wrControls w _ => admitted p w
  | .wrSrcAddr w _ => admitted p w
  | .wrLen w _ => admitted p w
  | .wrDstAddrW4 _ => true
  | .wrDstAddrW8 _ => true
  | .wrDstAddrNarrow w _ => w.isNarrow && p == .literal
  | .wrDstAddrHi w _ => admitted p w
  | .wrSettings w _ => admitted p w
  | .wrIrqEn w _ => admitted p w
  | .wrIrqSta w _ => admitted p w
  | .wrUndefined off w _ => admitted p w && undefinedOffset off

end Sys2Proof
end

