-- ==== Sys2Proof/Decode.lean ====
section
/-! DEFINITION. The decoder of 30_encoding.md R68, total on every transaction, with the encoder written from the same
tables after it, the opcode table as match and mask rows, and the assembler's requests and pseudo-instructions. -/

namespace Sys2Proof

/-! ## Widths -/

/-- `w = 2^SIZE` bytes (R58). -/
def Width.bytes : Width → Nat
  | .w1 => 1
  | .w2 => 2
  | .w4 => 4
  | .w8 => 8

/-- The SIZE code of a width (R58). -/
def Width.code : Width → BitVec 2
  | .w1 => 0b00#2
  | .w2 => 0b01#2
  | .w4 => 0b10#2
  | .w8 => 0b11#2

/-- The width of a SIZE code (R58). -/
def Width.ofCode (c : BitVec 2) : Width :=
  if c = 0b00#2 then .w1 else if c = 0b01#2 then .w2 else if c = 0b10#2 then .w4 else .w8

/-! ## The descriptor's fields (R57) -/

/-- EV, bit 15: 1 for a non-bus event. -/
def evField (d : BitVec 16) : Bool := d.getLsbD 15
/-- SIZE, bits 14:13. -/
def sizeField (d : BitVec 16) : BitVec 2 := d.extractLsb' 13 2
/-- DIR, bit 12: 1 for a Write. -/
def dirField (d : BitVec 16) : Bool := d.getLsbD 12
/-- OFFSET, bits 11:0. -/
def offsetField (d : BitVec 16) : Offset := d.extractLsb' 0 12
/-- Bits 14:0, what a non-bus event has beside EV. -/
def eventField (d : BitVec 16) : BitVec 15 := d.extractLsb' 0 15

/-- A bus transaction's descriptor from its fields: EV = 0, SIZE, DIR, OFFSET (R57). -/
def busDescriptor (w : Width) (dir : Bool) (off : Offset) : BitVec 16 :=
  (w.code.setWidth 16 <<< 13) ||| ((BitVec.ofBool dir).setWidth 16 <<< 12) ||| off.setWidth 16

/-- A non-bus event's descriptor: EV = 1 and the other 15 bits (R57). -/
def eventDescriptor (rest : BitVec 15) : BitVec 16 := 0x8000#16 ||| rest.setWidth 16

/-- A transaction carries a data word when it is a Write, and only then (R57, R67). -/
def Txn.carriesData (t : Txn) : Bool := !evField t.descriptor && dirField t.descriptor

/-- How many words the transaction is: the descriptor, and the data word of a Write (R57). -/
def Txn.wordCount (t : Txn) : Nat := if t.carriesData then 2 else 1

/-! ## Decode (R68) -/

/-- "At offset 0x010, the width also selects the operation" (R61): a Read's view of DST_ADDR. -/
def decodeDstRead : Width → Instr
  | .w1 => .rdDstAddrNarrow .w1
  | .w2 => .rdDstAddrNarrow .w2
  | .w4 => .rdDstAddrW4
  | .w8 => .rdDstAddrW8

/-- A Write's view of DST_ADDR (R61). -/
def decodeDstWrite (w : Width) (value : DWord) : Instr :=
  match w with
  | .w1 => .wrDstAddrNarrow .w1 value
  | .w2 => .wrDstAddrNarrow .w2 value
  | .w4 => .wrDstAddrW4 value
  | .w8 => .wrDstAddrW8 value

/-- The register a Read reaches: exact match on all 12 bits, with the width class at 0x010 (R60, R61, R63). -/
def decodeRead (off : Offset) (w : Width) : Instr :=
  if off = Config.offStart then .rdStart w
  else if off = Config.offControls then .rdControls w
  else if off = Config.offSrcAddr then .rdSrcAddr w
  else if off = Config.offLen then .rdLen w
  else if off = Config.offDstAddr then decodeDstRead w
  else if off = Config.offDstAddrHi then .rdDstAddrHi w
  else if off = Config.offSettings then .rdSettings w
  else if off = Config.offIrqEn then .rdIrqEn w
  else if off = Config.offIrqSta then .rdIrqSta w
  else .rdUndefined off w

/-- The register a Write reaches (R60, R61, R63). -/
def decodeWrite (off : Offset) (w : Width) (value : DWord) : Instr :=
  if off = Config.offStart then .wrStart w value
  else if off = Config.offControls then .wrControls w value
  else if off = Config.offSrcAddr then .wrSrcAddr w value
  else if off = Config.offLen then .wrLen w value
  else if off = Config.offDstAddr then decodeDstWrite w value
  else if off = Config.offDstAddrHi then .wrDstAddrHi w value
  else if off = Config.offSettings then .wrSettings w value
  else if off = Config.offIrqEn then .wrIrqEn w value
  else if off = Config.offIrqSta then .wrIrqSta w value
  else .wrUndefined off w value

/-- Register decode of a bus access (R60, R61). -/
def decodeRegister (off : Offset) (w : Width) : Access → Instr
  | .read => decodeRead off w
  | .write value => decodeWrite off w value

/-- The direction of a transaction, with the data word if it is a Write (R57). -/
def Txn.access (t : Txn) : Access := if dirField t.descriptor then .write t.data else .read

/-- `Decode(d)` of R68 under `NARROW_ACCESS = p`: events first, then narrowness, then the offset (R117). -/
def decode (p : NarrowAccess) (t : Txn) : Instr :=
  let d := t.descriptor
  if evField d then
    if d = 0x8000#16 then .reset else .reserved (eventField d)
  else
    let w := Width.ofCode (sizeField d)
    if w.isNarrow && p == .refuse then .narrowRefuse w (offsetField d) t.access
    else decodeRegister (offsetField d) w t.access

/-! ## Encode -/

/-- A Read's transaction; the data lane of a transaction without a data word is written as 0. -/
def encodeRead (w : Width) (off : Offset) : Txn := { descriptor := busDescriptor w false off, data := 0#64 }

/-- A Write's transaction. -/
def encodeWrite (w : Width) (off : Offset) (value : DWord) : Txn :=
  { descriptor := busDescriptor w true off, data := value }

/-- The transaction of an instruction, from the Encoding lines of R72 to R95, R134 and the fields of R57. -/
def encode : Instr → Txn
  | .reset => { descriptor := 0x8000#16, data := 0#64 }
  | .reserved rest => { descriptor := eventDescriptor rest, data := 0#64 }
  | .narrowRefuse w off .read => encodeRead w off
  | .narrowRefuse w off (.write value) => encodeWrite w off value
  | .rdStart w => encodeRead w Config.offStart
  | .rdControls w => encodeRead w Config.offControls
  | .rdSrcAddr w => encodeRead w Config.offSrcAddr
  | .rdLen w => encodeRead w Config.offLen
  | .rdDstAddrW4 => encodeRead .w4 Config.offDstAddr
  | .rdDstAddrW8 => encodeRead .w8 Config.offDstAddr
  | .rdDstAddrNarrow w => encodeRead w Config.offDstAddr
  | .rdDstAddrHi w => encodeRead w Config.offDstAddrHi
  | .rdSettings w => encodeRead w Config.offSettings
  | .rdIrqEn w => encodeRead w Config.offIrqEn
  | .rdIrqSta w => encodeRead w Config.offIrqSta
  | .rdUndefined off w => encodeRead w off
  | .wrStart w value => encodeWrite w Config.offStart value
  | .wrControls w value => encodeWrite w Config.offControls value
  | .wrSrcAddr w value => encodeWrite w Config.offSrcAddr value
  | .wrLen w value => encodeWrite w Config.offLen value
  | .wrDstAddrW4 value => encodeWrite .w4 Config.offDstAddr value
  | .wrDstAddrW8 value => encodeWrite .w8 Config.offDstAddr value
  | .wrDstAddrNarrow w value => encodeWrite w Config.offDstAddr value
  | .wrDstAddrHi w value => encodeWrite w Config.offDstAddrHi value
  | .wrSettings w value => encodeWrite w Config.offSettings value
  | .wrIrqEn w value => encodeWrite w Config.offIrqEn value
  | .wrIrqSta w value => encodeWrite w Config.offIrqSta value
  | .wrUndefined off w value => encodeWrite w off value

/-! ## The opcode table -/

/-- The name of an instruction's row in spec/opcode_table.json. -/
def Instr.mnemonic : Instr → String
  | .reset => "RESET"
  | .reserved _ => "RESERVED"
  | .narrowRefuse _ _ _ => "NARROW.REFUSE"
  | .rdStart _ => "RD.START"
  | .rdControls _ => "RD.CONTROLS"
  | .rdSrcAddr _ => "RD.SRC_ADDR"
  | .rdLen _ => "RD.LEN"
  | .rdDstAddrW4 => "RD.DST_ADDR.W4"
  | .rdDstAddrW8 => "RD.DST_ADDR.W8"
  | .rdDstAddrNarrow _ => "RD.DST_ADDR.NARROW"
  | .rdDstAddrHi _ => "RD.DST_ADDR_HI"
  | .rdSettings _ => "RD.SETTINGS"
  | .rdIrqEn _ => "RD.IRQ_EN"
  | .rdIrqSta _ => "RD.IRQ_STA"
  | .rdUndefined _ _ => "RD.UNDEFINED"
  | .wrStart _ _ => "WR.START"
  | .wrControls _ _ => "WR.CONTROLS"
  | .wrSrcAddr _ _ => "WR.SRC_ADDR"
  | .wrLen _ _ => "WR.LEN"
  | .wrDstAddrW4 _ => "WR.DST_ADDR.W4"
  | .wrDstAddrW8 _ => "WR.DST_ADDR.W8"
  | .wrDstAddrNarrow _ _ => "WR.DST_ADDR.NARROW"
  | .wrDstAddrHi _ _ => "WR.DST_ADDR_HI"
  | .wrSettings _ _ => "WR.SETTINGS"
  | .wrIrqEn _ _ => "WR.IRQ_EN"
  | .wrIrqSta _ _ => "WR.IRQ_STA"
  | .wrUndefined _ _ _ => "WR.UNDEFINED"

/-- The rows for events and narrow accesses. -/
def opcodeRowsEvents : List OpcodeRow :=
  [⟨"RESET", 0x8000#16, 0xFFFF#16, 1, none⟩,
   ⟨"RESERVED", 0x8000#16, 0x8000#16, 2, none⟩,
   ⟨"NARROW.REFUSE", 0x0000#16, 0xC000#16, 3, some .refuse⟩]

/-- The rows for Reads. -/
def opcodeRowsReads : List OpcodeRow :=
  [⟨"RD.START", 0x0000#16, 0x9FFF#16, 4, none⟩,
   ⟨"RD.CONTROLS", 0x0004#16, 0x9FFF#16, 4, none⟩,
   ⟨"RD.SRC_ADDR", 0x0008#16, 0x9FFF#16, 4, none⟩,
   ⟨"RD.LEN", 0x000C#16, 0x9FFF#16, 4, none⟩,
   ⟨"RD.DST_ADDR.W4", 0x4010#16, 0xFFFF#16, 4, none⟩,
   ⟨"RD.DST_ADDR.W8", 0x6010#16, 0xFFFF#16, 4, none⟩,
   ⟨"RD.DST_ADDR.NARROW", 0x0010#16, 0xDFFF#16, 4, some .literal⟩,
   ⟨"RD.DST_ADDR_HI", 0x0014#16, 0x9FFF#16, 4, none⟩,
   ⟨"RD.SETTINGS", 0x0018#16, 0x9FFF#16, 4, none⟩,
   ⟨"RD.IRQ_EN", 0x0054#16, 0x9FFF#16, 4, none⟩,
   ⟨"RD.IRQ_STA", 0x0058#16, 0x9FFF#16, 4, none⟩,
   ⟨"RD.UNDEFINED", 0x0000#16, 0x9000#16, 5, none⟩]

/-- The rows for Writes. -/
def opcodeRowsWrites : List OpcodeRow :=
  [⟨"WR.START", 0x1000#16, 0x9FFF#16, 4, none⟩,
   ⟨"WR.CONTROLS", 0x1004#16, 0x9FFF#16, 4, none⟩,
   ⟨"WR.SRC_ADDR", 0x1008#16, 0x9FFF#16, 4, none⟩,
   ⟨"WR.LEN", 0x100C#16, 0x9FFF#16, 4, none⟩,
   ⟨"WR.DST_ADDR.W4", 0x5010#16, 0xFFFF#16, 4, none⟩,
   ⟨"WR.DST_ADDR.W8", 0x7010#16, 0xFFFF#16, 4, none⟩,
   ⟨"WR.DST_ADDR.NARROW", 0x1010#16, 0xDFFF#16, 4, some .literal⟩,
   ⟨"WR.DST_ADDR_HI", 0x1014#16, 0x9FFF#16, 4, none⟩,
   ⟨"WR.SETTINGS", 0x1018#16, 0x9FFF#16, 4, none⟩,
   ⟨"WR.IRQ_EN", 0x1054#16, 0x9FFF#16, 4, none⟩,
   ⟨"WR.IRQ_STA", 0x1058#16, 0x9FFF#16, 4, none⟩,
   ⟨"WR.UNDEFINED", 0x1000#16, 0x9000#16, 5, none⟩]

/-- The opcode table, 27 rows in the file's order (R68: "the same decoder as match/mask rows with priorities"). -/
def opcodeTable : List OpcodeRow := opcodeRowsEvents ++ opcodeRowsReads ++ opcodeRowsWrites

/-- A row applies to a descriptor under a value of NARROW_ACCESS. -/
def OpcodeRow.applies (p : NarrowAccess) (d : BitVec 16) (r : OpcodeRow) : Bool :=
  (d &&& r.mask == r.pattern) && (r.condition == none || r.condition == some p)

/-- The row of least priority number in a list, the first of them where several have it. -/
def leastPriority : List OpcodeRow → Option OpcodeRow
  | [] => none
  | r :: rs =>
    match leastPriority rs with
    | none => some r
    | some q => if r.priority ≤ q.priority then some r else some q

/-- The row the table gives a descriptor. -/
def tableRow (p : NarrowAccess) (d : BitVec 16) : Option OpcodeRow :=
  leastPriority (opcodeTable.filter (·.applies p d))

/-! ## Words numbered as the opcode table numbers them -/

/-- The transaction whose bits are `w`: bits 15:0 the descriptor, bits 79:16 the data word, every bit from `nbits` on 0. -/
def txnOfTableWord (nbits w : Nat) : Txn :=
  let v := w % 2 ^ nbits
  { descriptor := BitVec.ofNat 16 v, data := BitVec.ofNat 64 (v / 2 ^ 16) }

/-- The instruction the decoder reads from a table word, under the default `NARROW_ACCESS = refuse` that
`State.reset` has (R7). The decoder is total: reserved and narrow words decode to the rows that refuse them. -/
def decodeTableWord (nbits w : Nat) : Option Instr :=
  some (decode Config.defaultParams.narrowAccess (txnOfTableWord nbits w))

/-! ## Requests and pseudo-instructions -/

/-- "The device decodes only offset = address AND 0xFFF" (R56). -/
def busOffset (address : Addr) : Offset := address.setWidth 12

/-- A host's request as a transaction (R55, R56, R69). -/
def assemble : Request → Txn
  | .read address w => encodeRead w (busOffset address)
  | .write address value w => encodeWrite w (busOffset address) value
  | .reset => { descriptor := 0x8000#16, data := 0#64 }

/-- `RD<bits> <offset>` (R69). -/
def rdReq (w : Width) (off : Offset) : Request := .read (off.setWidth 64) w

/-- `WR<bits> <offset>, <value>` (R69). -/
def wrReq (w : Width) (off : Offset) (value : DWord) : Request := .write (off.setWidth 64) value w

/-- The requests a pseudo-instruction stands for (R70). -/
def Pseudo.expand : Pseudo → List Request
  | .setDst v => [wrReq .w8 Config.offDstAddr v]
  | .setDst2 v => [wrReq .w4 Config.offDstAddrHi (v >>> 32), wrReq .w4 Config.offDstAddr (v &&& 0xFFFFFFFF#64)]
  | .config s n d c =>
    [wrReq .w4 Config.offSrcAddr (s.setWidth 64), wrReq .w4 Config.offLen (BitVec.ofNat 64 (n - 1)),
     wrReq .w8 Config.offDstAddr d, wrReq .w4 Config.offControls (BitVec.ofNat 64 c)]
  | .enIrq => [wrReq .w4 Config.offIrqEn 0x2#64]
  | .trigger => [wrReq .w4 Config.offStart 0x1#64]
  | .ack v => [wrReq .w4 Config.offIrqSta v]
  | .ackRead r => [rdReq .w4 Config.offIrqSta, wrReq .w4 Config.offIrqSta r]

end Sys2Proof
end

