-- ==== Sys2Proof/Machine/State.lean ====
section
/-! DEFINITION. The state of the machine: the device state of 10_state.md R13, the construction-time parameters beside
it, the memory collaborator, the host's input and the device's outputs; and the reasons a step can stop. -/

namespace Sys2Proof.Machine

/-- The register bank: eight storage registers (10_state.md R13). -/
structure Bank where
  /-- START (R16). -/
  start : Word
  /-- CONTROLS (R17). -/
  controls : Word
  /-- SRC_ADDR (R18). -/
  srcAddr : Word
  /-- LEN, the transfer length minus one (R19). -/
  len : Word
  /-- DST_ADDR, one 64-bit storage seen through two offsets (R14, R20). -/
  dstAddr : DWord
  /-- SETTINGS (R21). -/
  settings : Word
  /-- IRQ_EN (R22). -/
  irqEn : Word
  /-- IRQ_STA (R23). -/
  irqSta : Word
  deriving DecidableEq, Repr

/-- The register bank after reset (R31, R134). -/
def Bank.reset : Bank :=
  { start := 0#32, controls := Config.controlsReset, srcAddr := 0#32, len := Config.lenReset, dstAddr := 0#64,
    settings := 0#32, irqEn := 0#32, irqSta := 0#32 }

/-- Why the device is halted. The zero-chunk hang is the only reason (R27). -/
inductive HaltReason where
  | zeroChunkHang
  deriving DecidableEq, Repr

/-- The device state: "the tuple (bank, irq_out, halted)" (R13). -/
structure Device where
  bank : Bank
  /-- The level last driven on the interrupt output (R26). -/
  irqOut : Bool
  /-- `none` while the device runs (R27). -/
  halted : Option HaltReason
  deriving DecidableEq, Repr

/-- The DMA physical address space: the bytes some agent has written, by rising address. An unlisted address holds the
free byte `Config.unwrittenByte` (20_memory.md R45, log 5). -/
abbrev Memory := List Host.Cell

/-- The canonical form: addresses strictly rising, each inside the 64-bit space. -/
abbrev Memory.wf (m : Memory) : Prop :=
  m.Pairwise (fun x y => x.1 < y.1) ∧ ∀ c ∈ m, c.1 < Config.addressSpace

/-- What arrives from outside between two steps: the host's next transaction (R55), or another agent's store of one
byte (R52, log 4). -/
inductive Input where
  | bus (t : Txn)
  | agentStore (a : Addr) (b : Byte)
  deriving DecidableEq, Repr

/-- A protocol-violation log event (60_exceptions.md R112, R113, R115). -/
inductive LogEvent where
  | protocolViolationRead (off : Offset) (w : Width)
  | protocolViolationWrite (off : Offset) (w : Width) (value : DWord)
  | zeroChunkRejected (start controls : Word)
  deriving DecidableEq, Repr

/-- One access on the memory master port: `MemRead(addr, n)` with the n bytes it returned, or
`MemWrite(addr, n, bytes)` (00_scope.md R6, R10). The length n is the length of the byte list. -/
inductive PortEvent where
  | memRead (a : Addr) (bytes : List Byte)
  | memWrite (a : Addr) (bytes : List Byte)
  deriving DecidableEq, Repr

/-- The machine's state. -/
structure State where
  /-- The device state (R13). -/
  dev : Device
  /-- The construction-time parameters, which no step changes (R7, R28). -/
  params : Params
  /-- The memory collaborator's contents (R45). -/
  mem : Memory
  /-- What the host and other agents do next, first one first (log 2). -/
  inputs : List Input
  /-- The index of the host's next transaction in its sequence (R15). -/
  place : Nat
  /-- The value the last completed transaction handed back to the bus; none after a Write or a reset (R55, log 7). -/
  response : Option DWord
  /-- The protocol-violation log, oldest event first: an output, not device state (R10, R13). -/
  log : List LogEvent
  /-- The accesses made on the memory master port, oldest first: an output (R6, R101, log 7). -/
  port : List PortEvent
  deriving DecidableEq, Repr

/-- Why a step ends in a fault. -/
inductive Fault where
  /-- `Fault(ZeroChunkHang)` of R113, raised by WR.START with its trigger bit set while CONTROLS[7:0] is 0 under
  `ZERO_CHUNK_POLICY = hang`; `left` is the state the fault leaves, with START written and the device halted. Safe:
  the spec's own outcome, after which a run has no end state (R148). -/
  | zeroChunkHang (left : State)
  /-- The device is halted and no step is enabled (R27, outcome (d) of R11); raised by the step of a halted state.
  Safe: nothing is claimed of what follows. -/
  | stuck (why : HaltReason)
  deriving DecidableEq, Repr

/-- Why the model gives a transaction no meaning (60_exceptions.md R114), each with what R115 says it records. -/
inductive Refusal where
  /-- An instruction that has no meaning yet. No arm of `exec` answers it. -/
  | notModelled (mnemonic : String)
  /-- A descriptor with EV = 1 other than 0x8000 (R64); raised by RESERVED. Safe. -/
  | reservedDescriptor (descriptor : BitVec 16)
  /-- A width-1 or width-2 access under `NARROW_ACCESS = refuse` (R65); raised by NARROW.REFUSE. Safe. -/
  | narrowAccess (descriptor : BitVec 16)
  /-- A chunk whose byte range passes 2^64 (R44); raised by WR.START before the chunk's first access. Safe. -/
  | chunkCrossesTop (a : Addr) (k : Nat)
  deriving DecidableEq, Repr

/-- The device at construction and after a reset: "the same state" (R31, R135). -/
def Device.reset : Device := { bank := Bank.reset, irqOut := Config.resetIrqOut, halted := none }

/-- The machine at construction with given parameters: the reset state of the device (R135), nothing written to
memory, nothing yet asked by the host, no output (log 19). -/
def State.construct (p : Params) : State :=
  { dev := Device.reset, params := p, mem := [], inputs := [], place := 0, response := none, log := [], port := [] }

/-- The machine right after reset, with the default parameters of R7. -/
def State.reset : State := State.construct Config.defaultParams

end Sys2Proof.Machine
end

