-- ==== Sys2Proof/Machine/Operands.lean ====
section
/-! DEFINITION. Operand assembly: which bits of a bus value a register takes (30_encoding.md R59, R62), what a read
hands back (R37), and the transfer engine's operands (42_transfer_engine.md R98). -/

namespace Sys2Proof.Machine

/-! ## The bus value -/

/-- "For a width-w write, only value[8w-1:0] is meaningful on the bus. The model zero-extends a narrower value to
64 bits" (R59). -/
def busValue (w : Width) (value : DWord) : DWord := (value.setWidth (8 * w.bytes)).setWidth 64

/-- value[31:0], the bits every 32-bit register takes (R62). -/
def low32 (value : DWord) : Word := value.setWidth 32

/-- `zext_64` of a 32-bit register, what a Read of it returns (R37). -/
def zext64 (r : Word) : DWord := r.setWidth 64

/-- Byte k of a bus value: bits [8k+7:8k] (R34; PRESUMED, the spec's own G-1, log 15). -/
def laneByte (value : DWord) (k : Nat) : Byte := value.extractLsb' (8 * k) 8

/-- A w-byte access as bytes, byte 0 first (R34). -/
def busLanes (w : Width) (value : DWord) : List Byte := (List.range w.bytes).map (laneByte value)

/-- The bus value whose bytes are given, byte 0 first (R34). -/
def ofLanes : List Byte → DWord
  | [] => 0#64
  | b :: bs => (ofLanes bs <<< 8) ||| b.setWidth 64

/-! ## The two views of DST_ADDR (R61) -/

/-- DST_ADDR[31:0]. -/
def dstLow (d : DWord) : Word := d.extractLsb' 0 32

/-- DST_ADDR[63:32]. -/
def dstHigh (d : DWord) : Word := d.extractLsb' 32 32

/-- `bank.DST_ADDR[63:32] ++ value[31:0]` (R89): the high half is kept. -/
def withDstLow (d : DWord) (lo : Word) : DWord := (d &&& 0xFFFFFFFF00000000#64) ||| lo.setWidth 64

/-- `value[31:0] ++ bank.DST_ADDR[31:0]` (R91): the low half is kept. -/
def withDstHigh (d : DWord) (hi : Word) : DWord := (hi.setWidth 64 <<< 32) ||| (d &&& 0x00000000FFFFFFFF#64)

/-! ## The transfer engine's operands (R98) -/

/-- `src_abs = BASE +_64 zext_64(SRC_ADDR)`, which wraps modulo 2^64 (R98; decision D5, log 10). -/
def srcAbs (p : Params) (b : Bank) : Addr := p.base + zext64 b.srcAddr

/-- `dst_cur = DST_ADDR`, an absolute address (R20, R98). -/
def dstCur (b : Bank) : Addr := b.dstAddr

/-- `remaining` at entry: LEN + 1, computed without wrapping, 1 to 2^32 (R98, I-6). -/
def transferLength (b : Bank) : Nat := b.len.toNat + 1

/-- `step`: CONTROLS[7:0] (R98). -/
def chunkField (b : Bank) : BitVec 8 := b.controls.extractLsb' 0 8

end Sys2Proof.Machine
end

