-- ==== Sys2Proof/Machine/Flags.lean ====
section
/-! DEFINITION. The status flags DONE and PENDING of IRQ_STA and the interrupt line (10_state.md R24,
41_register_write.md R94, 42_transfer_engine.md R103, 60_exceptions.md R118), and the cause codes of R115. -/

namespace Sys2Proof.Machine

/-- `LineFn(bank) = (IRQ_EN[1] == 1) and (IRQ_STA[6] == 1)` (R118). -/
def lineFn (b : Bank) : Bool := b.irqEn.getLsbD Config.doneEnBit && b.irqSta.getLsbD Config.pendingBit

/-- The XOR of an acknowledge: value[5:0] toggles IRQ_STA[5:0] (R94). -/
def toggleStatus (sta : Word) (value : DWord) : Word := sta ^^^ (value.extractLsb' 0 6).setWidth 32

/-- The collapse: a status with only PENDING set becomes 0 (R94). -/
def collapse (t : Word) : Word := if t = Config.pendingOnly then 0#32 else t

/-- What an IRQ_STA write leaves: the XOR and then the collapse (R94). -/
def ackStatus (sta : Word) (value : DWord) : Word := collapse (toggleStatus sta value)

/-- What a completed transfer leaves: DONE and PENDING set together (R103). -/
def completeStatus (sta : Word) : Word := sta ||| Config.completionMask

/-! ## Cause codes (R115; the numbers are the spec's own labels, decision D16) -/

/-- The code of a log event. -/
def LogEvent.code : LogEvent → Nat
  | .protocolViolationRead _ _ => 1
  | .protocolViolationWrite _ _ _ => 2
  | .zeroChunkRejected _ _ => 3

/-- The code of a fault; a stuck step has none. -/
def Fault.code : Fault → Option Nat
  | .zeroChunkHang _ => some 4
  | .stuck _ => none

/-- The code of a refusal; one that is not the spec's has none. -/
def Refusal.code : Refusal → Option Nat
  | .narrowAccess _ => some 5
  | .reservedDescriptor _ => some 6
  | .chunkCrossesTop _ _ => some 7
  | _ => none

/-- The code of a step taken from `s`: 0 for normal completion, the event's code where the step logged one. -/
def outcomeCode (s : State) : Host.Outcome State Fault Refusal → Option Nat
  | .next t =>
    match t.log.drop s.log.length with
    | [] => some 0
    | e :: _ => some e.code
  | .fault r => r.code
  | .refused r => r.code

end Sys2Proof.Machine
end

