-- ==== Sys2Proof/Machine/Ops.lean ====
section
/-! DEFINITION. The named operations over memory, registers and ports that the meanings share: the primitives of
00_scope.md R10, the copy loop of 42_transfer_engine.md R100, and what happens around a transaction.

The device has no trap entry and no return from one (60_exceptions.md R125). What stands in their place is here:
`signalCompletion` and `recompute` (the signal of a completion, R103, R119), `State.record` (the signal of a protocol
violation, R112) and `hang` (the zero-chunk fault, R113). -/

namespace Sys2Proof.Machine

/-! ## Memory (R45) -/

/-- The byte a list gives an address, if it lists it. -/
def Memory.byteAt? : Memory → Nat → Option Byte
  | [], _ => none
  | (k, b) :: m, a => if k = a then some b else Memory.byteAt? m a

/-- Put a byte at an address, keeping the addresses strictly rising. -/
def Memory.put : Memory → Nat → Byte → Memory
  | [], a, b => [(a, b)]
  | (k, c) :: m, a, b =>
    if a < k then (a, b) :: (k, c) :: m
    else if a = k then (a, b) :: m
    else (k, c) :: Memory.put m a b

/-- What an address that nothing has written reads as: the free byte of that address (R45, I-8, log 5). -/
def Memory.unlisted (a : Addr) : Byte := Config.unwrittenByte a

/-- The byte the memory collaborator holds at an address: "a total function from 64-bit address to byte" (R45). -/
def Memory.readByte (m : Memory) (a : Addr) : Byte := (m.byteAt? a.toNat).getD (Memory.unlisted a)

/-- A store of one byte. -/
def Memory.writeByte (m : Memory) (a : Addr) (b : Byte) : Memory := m.put a.toNat b

/-- The n bytes at a, a+1, ..., byte 0 first (R10 `MemRead`). -/
def Memory.readBytes (m : Memory) : Addr → Nat → List Byte
  | _, 0 => []
  | a, n + 1 => m.readByte a :: Memory.readBytes m (a + 1#64) n

/-- Byte i of the list to a+i (R10 `MemWrite`). -/
def Memory.writeBytes : Memory → Addr → List Byte → Memory
  | m, _, [] => m
  | m, a, b :: bs => Memory.writeBytes (m.writeByte a b) (a + 1#64) bs

/-! ## Registers and outputs -/

/-- Change the register bank. -/
def State.setBank (s : State) (b : Bank) : State := { s with dev := { s.dev with bank := b } }

/-- `SetLevel(b)`: drive the interrupt output and record the level (R10). -/
def State.setLevel (s : State) (b : Bool) : State := { s with dev := { s.dev with irqOut := b } }

/-- Halt the device (R27). -/
def State.halt (s : State) (r : HaltReason) : State := { s with dev := { s.dev with halted := some r } }

/-- `Log(event)`: append an event (R10). -/
def State.record (s : State) (e : LogEvent) : State := { s with log := s.log ++ [e] }

/-- What the transaction hands back to the bus: a value for a Read, nothing for a Write or a reset (R55, R71, R84). -/
def State.respond (s : State) (v : Option DWord) : State := { s with response := v }

/-- `SetLevel(LineFn(bank))` (R119). -/
def recompute (s : State) : State := s.setLevel (lineFn s.dev.bank)

/-- A Read that returns a value and changes no device state (R71). -/
def readReturns (v : DWord) (s : State) : Host.Outcome State Fault Refusal := .next (s.respond (some v))

/-- A Write whose whole effect is a new bank; SetLevel is not called (R84). -/
def writeStores (b : Bank) (s : State) : Host.Outcome State Fault Refusal := .next ((s.setBank b).respond none)

/-- A Write of a new bank with the line recomputed after it (R84, R119). -/
def writeStoresAndRecomputes (b : Bank) (s : State) : Host.Outcome State Fault Refusal :=
  .next ((recompute (s.setBank b)).respond none)

/-- Go on after a next state; a fault or a refusal ends the step (R10). -/
def andThen (o : Host.Outcome State Fault Refusal) (f : State → Host.Outcome State Fault Refusal) :
    Host.Outcome State Fault Refusal :=
  match o with
  | .next s => f s
  | .fault r => .fault r
  | .refused r => .refused r

/-! ## The memory master port (R6, R10) -/

/-- `MemRead(addr, n)`: the bytes, and the state in which the access has been made. -/
def memRead (a : Addr) (n : Nat) (s : State) : List Byte × State :=
  (s.mem.readBytes a n, { s with port := s.port ++ [.memRead a (s.mem.readBytes a n)] })

/-- `MemWrite(addr, n, bytes)`. -/
def memWrite (a : Addr) (bytes : List Byte) (s : State) : State :=
  { s with mem := s.mem.writeBytes a bytes, port := s.port ++ [.memWrite a bytes] }

/-! ## The transfer engine (R97 to R110) -/

/-- One chunk: the whole MemRead into the transient buffer, then the MemWrite (R100, R105). -/
def copyChunk (src dst : Addr) (k : Nat) (s : State) : State :=
  let r := memRead src k s
  memWrite dst r.1 r.2

/-- The byte range of k bytes at a passes the top of the 64-bit space: a + k > 2^64 (R44). -/
def crossesTop (a : Addr) (k : Nat) : Bool := decide (Config.addressSpace < a.toNat + k)

/-- The copy loop of R100: every chunk from the same source to the same destination, only `remaining` decreases. The
first argument is fuel; the loop is entered with fuel `remaining`, and each iteration lowers `remaining` by at least 1
when `step` is at least 1 (R109), so the fuel never ends a loop early (log 21). -/
def copyLoop (step : Nat) (src dst : Addr) : Nat → Nat → State → Host.Outcome State Fault Refusal
  | 0, _, s => .next s
  | fuel + 1, remaining, s =>
    if remaining = 0 then .next s
    else if crossesTop src (min step remaining) then .refused (.chunkCrossesTop src (min step remaining))
    else if crossesTop dst (min step remaining) then .refused (.chunkCrossesTop dst (min step remaining))
    else copyLoop step src dst fuel (remaining - min step remaining) (copyChunk src dst (min step remaining) s)

/-- Completion: IRQ_STA OR 0x42 (R103). The caller recomputes the line. -/
def signalCompletion (s : State) : State :=
  s.setBank { s.dev.bank with irqSta := completeStatus s.dev.bank.irqSta }

/-- A transfer with the chunk size `step ≥ 1`: the operands are read once, at entry (R98), the loop runs to its end
(R100), then completion is signalled (R103). -/
def transfer (step : Nat) (s : State) : Host.Outcome State Fault Refusal :=
  andThen
    (copyLoop step (srcAbs s.params s.dev.bank) (dstCur s.dev.bank) (transferLength s.dev.bank)
      (transferLength s.dev.bank) s)
    (fun t => .next (signalCompletion t))

/-- The zero-chunk fault: the device is halted, and the fault carries the state it leaves (R113, log 6). -/
def hang (s : State) : Host.Outcome State Fault Refusal :=
  .fault (.zeroChunkHang (s.halt .zeroChunkHang))

/-- `Run()`: the zero-chunk policy before any memory access (R99), then the transfer. -/
def runEngine (s : State) : Host.Outcome State Fault Refusal :=
  if chunkField s.dev.bank = 0#8 then
    match s.params.zeroChunk with
    | .hang => hang s
    | .clamp1 => transfer 1 s
    | .reject => .next (s.record (.zeroChunkRejected s.dev.bank.start s.dev.bank.controls))
  else transfer (chunkField s.dev.bank).toNat s

/-- The end of a START write: the unconditional recompute, and nothing handed back (R85). -/
def finishStart (s : State) : State := (recompute s).respond none

/-! ## Around a transaction -/

/-- Take the host's next transaction: it leaves the input list and the place advances by one (R15). -/
def takeTransaction (rest : List Input) (s : State) : State := { s with inputs := rest, place := s.place + 1 }

/-- Another agent's store, between two device steps (R52, log 4). -/
def agentStores (a : Addr) (b : Byte) (rest : List Input) (s : State) : State :=
  { s with mem := s.mem.writeByte a b, inputs := rest }

/-- Nothing is pending: the device "is idle, holding its state" (R132, log 3). -/
def idle (s : State) : Host.Outcome State Fault Refusal := .next s

/-- Put a transaction at the head of the host's sequence. -/
def presentNext (t : Txn) (s : State) : State := { s with inputs := .bus t :: s.inputs }

/-- Append requests to the host's sequence (R55, R69). -/
def presentRequests (rs : List Request) (s : State) : State :=
  { s with inputs := s.inputs ++ rs.map (fun r => .bus (assemble r)) }

end Sys2Proof.Machine
end

