-- ==== Sys2Proof/Machine/Reads.lean ====
section
/-! DEFINITION. The meanings of the register reads (40_register_read.md R71 to R83). A read changes no device state,
calls no SetLevel and makes no memory access; the width selects nothing here, since Decode has already chosen the view
at 0x010 (R61). -/

namespace Sys2Proof.Machine

/-- RD.START (R72). -/
def execRdStart (_w : Width) (s : State) : Host.Outcome State Fault Refusal :=
  readReturns (zext64 s.dev.bank.start) s

/-- RD.CONTROLS (R73). -/
def execRdControls (_w : Width) (s : State) : Host.Outcome State Fault Refusal :=
  readReturns (zext64 s.dev.bank.controls) s

/-- RD.SRC_ADDR (R74): the stored offset, without BASE. -/
def execRdSrcAddr (_w : Width) (s : State) : Host.Outcome State Fault Refusal :=
  readReturns (zext64 s.dev.bank.srcAddr) s

/-- RD.LEN (R75): the stored length minus one. -/
def execRdLen (_w : Width) (s : State) : Host.Outcome State Fault Refusal :=
  readReturns (zext64 s.dev.bank.len) s

/-- RD.DST_ADDR.W4 (R76): the low half. -/
def execRdDstAddrW4 (s : State) : Host.Outcome State Fault Refusal :=
  readReturns (zext64 (dstLow s.dev.bank.dstAddr)) s

/-- RD.DST_ADDR.W8 (R77): all 64 bits. -/
def execRdDstAddrW8 (s : State) : Host.Outcome State Fault Refusal :=
  readReturns s.dev.bank.dstAddr s

/-- RD.DST_ADDR.NARROW (R77): the device returns all 64 bits; what the bus passes on of them is outside the block
(I-4, log 12). -/
def execRdDstAddrNarrow (_w : Width) (s : State) : Host.Outcome State Fault Refusal :=
  readReturns s.dev.bank.dstAddr s

/-- RD.DST_ADDR_HI (R78): the upper half, at any width. -/
def execRdDstAddrHi (_w : Width) (s : State) : Host.Outcome State Fault Refusal :=
  readReturns (zext64 (dstHigh s.dev.bank.dstAddr)) s

/-- RD.SETTINGS (R79). -/
def execRdSettings (_w : Width) (s : State) : Host.Outcome State Fault Refusal :=
  readReturns (zext64 s.dev.bank.settings) s

/-- RD.IRQ_EN (R80): all 32 stored bits. -/
def execRdIrqEn (_w : Width) (s : State) : Host.Outcome State Fault Refusal :=
  readReturns (zext64 s.dev.bank.irqEn) s

/-- RD.IRQ_STA (R81): reading acknowledges nothing. -/
def execRdIrqSta (_w : Width) (s : State) : Host.Outcome State Fault Refusal :=
  readReturns (zext64 s.dev.bank.irqSta) s

/-- RD.UNDEFINED (R82): one log event, and 0. -/
def execRdUndefined (off : Offset) (w : Width) (s : State) : Host.Outcome State Fault Refusal :=
  readReturns 0#64 (s.record (.protocolViolationRead off w))

end Sys2Proof.Machine
end

