-- ==== Sys2Proof/Machine/System.lean ====
section
/-! DEFINITION. The meanings of RESET and of the two rows the spec refuses (70_reset_and_hazards.md R134,
30_encoding.md R64, R65). -/

namespace Sys2Proof.Machine

/-- RESET (R134): the reset bank, then `SetLevel(false)`. Memory, BASE and the log are not touched; the pseudocode does
not write `halted`, and a step reaches RESET only while it is none (log 9). -/
def execReset (s : State) : Host.Outcome State Fault Refusal :=
  .next (((s.setBank Bank.reset).setLevel Config.resetIrqOut).respond none)

/-- RESERVED (R64): "The model refuses it with reason `ReservedDescriptor`. No state changes and nothing is logged." -/
def execReserved (rest : BitVec 15) (_s : State) : Host.Outcome State Fault Refusal :=
  .refused (.reservedDescriptor (eventDescriptor rest))

/-- NARROW.REFUSE (R65): refused "with reason `NarrowAccess` before the offset is decoded". -/
def execNarrowRefuse (w : Width) (off : Offset) (acc : Access) (_s : State) : Host.Outcome State Fault Refusal :=
  .refused (.narrowAccess (encode (.narrowRefuse w off acc)).descriptor)

end Sys2Proof.Machine
end

