-- ==== Sys2Proof/Machine/Writes.lean ====
section
/-! DEFINITION. The meanings of the register writes (41_register_write.md R84 to R96). Each takes the bits of R62 of
the bus value of R59; only START, IRQ_EN and IRQ_STA recompute the line (R84, R119). -/

namespace Sys2Proof.Machine

/-- WR.START (R85): store the raw value, run the engine if value[0] is 1, recompute the line unconditionally. -/
def execWrStart (w : Width) (value : DWord) (s : State) : Host.Outcome State Fault Refusal :=
  let v := busValue w value
  let stored := s.setBank { s.dev.bank with start := low32 v }
  if v.getLsbD 0 then andThen (runEngine stored) (fun t => .next (finishStart t))
  else .next (finishStart stored)

/-- WR.CONTROLS (R86). -/
def execWrControls (w : Width) (value : DWord) (s : State) : Host.Outcome State Fault Refusal :=
  writeStores { s.dev.bank with controls := low32 (busValue w value) } s

/-- WR.SRC_ADDR (R87). -/
def execWrSrcAddr (w : Width) (value : DWord) (s : State) : Host.Outcome State Fault Refusal :=
  writeStores { s.dev.bank with srcAddr := low32 (busValue w value) } s

/-- WR.LEN (R88). -/
def execWrLen (w : Width) (value : DWord) (s : State) : Host.Outcome State Fault Refusal :=
  writeStores { s.dev.bank with len := low32 (busValue w value) } s

/-- WR.DST_ADDR.W4 (R89): merges into the low half. -/
def execWrDstAddrW4 (value : DWord) (s : State) : Host.Outcome State Fault Refusal :=
  writeStores { s.dev.bank with dstAddr := withDstLow s.dev.bank.dstAddr (low32 (busValue .w4 value)) } s

/-- WR.DST_ADDR.W8 (R90): replaces all 64 bits. -/
def execWrDstAddrW8 (value : DWord) (s : State) : Host.Outcome State Fault Refusal :=
  writeStores { s.dev.bank with dstAddr := busValue .w8 value } s

/-- WR.DST_ADDR.NARROW (R90): replaces all 64 bits with the zero-extended narrow value. -/
def execWrDstAddrNarrow (w : Width) (value : DWord) (s : State) : Host.Outcome State Fault Refusal :=
  writeStores { s.dev.bank with dstAddr := busValue w value } s

/-- WR.DST_ADDR_HI (R91): replaces the upper half, at any width. -/
def execWrDstAddrHi (w : Width) (value : DWord) (s : State) : Host.Outcome State Fault Refusal :=
  writeStores { s.dev.bank with dstAddr := withDstHigh s.dev.bank.dstAddr (low32 (busValue w value)) } s

/-- WR.SETTINGS (R92). -/
def execWrSettings (w : Width) (value : DWord) (s : State) : Host.Outcome State Fault Refusal :=
  writeStores { s.dev.bank with settings := low32 (busValue w value) } s

/-- WR.IRQ_EN (R93). -/
def execWrIrqEn (w : Width) (value : DWord) (s : State) : Host.Outcome State Fault Refusal :=
  writeStoresAndRecomputes { s.dev.bank with irqEn := low32 (busValue w value) } s

/-- WR.IRQ_STA (R94): the XOR acknowledge and the collapse. -/
def execWrIrqSta (w : Width) (value : DWord) (s : State) : Host.Outcome State Fault Refusal :=
  writeStoresAndRecomputes { s.dev.bank with irqSta := ackStatus s.dev.bank.irqSta (busValue w value) } s

/-- WR.UNDEFINED (R95): one log event, and nothing else. -/
def execWrUndefined (off : Offset) (w : Width) (value : DWord) (s : State) : Host.Outcome State Fault Refusal :=
  .next ((s.record (.protocolViolationWrite off w (busValue w value))).respond none)

end Sys2Proof.Machine
end

