-- ==== Sys2Proof/Machine/Dispatch.lean ====
section
/-! DEFINITION. One arm per row of the opcode table: the meaning of each instruction. Whether the device is halted is
`step`'s question (60_exceptions.md R117), and which widths reach a row is Decode's (R65, log 8). -/

namespace Sys2Proof.Machine

def exec (i : Instr) (s : State) : Host.Outcome State Fault Refusal :=
  match i with
  | .reset => Sys2Proof.Machine.execReset s
  | .reserved rest => Sys2Proof.Machine.execReserved rest s
  | .narrowRefuse w off acc => Sys2Proof.Machine.execNarrowRefuse w off acc s
  | .rdStart w => Sys2Proof.Machine.execRdStart w s
  | .rdControls w => Sys2Proof.Machine.execRdControls w s
  | .rdSrcAddr w => Sys2Proof.Machine.execRdSrcAddr w s
  | .rdLen w => Sys2Proof.Machine.execRdLen w s
  | .rdDstAddrW4 => Sys2Proof.Machine.execRdDstAddrW4 s
  | .rdDstAddrW8 => Sys2Proof.Machine.execRdDstAddrW8 s
  | .rdDstAddrNarrow w => Sys2Proof.Machine.execRdDstAddrNarrow w s
  | .rdDstAddrHi w => Sys2Proof.Machine.execRdDstAddrHi w s
  | .rdSettings w => Sys2Proof.Machine.execRdSettings w s
  | .rdIrqEn w => Sys2Proof.Machine.execRdIrqEn w s
  | .rdIrqSta w => Sys2Proof.Machine.execRdIrqSta w s
  | .rdUndefined off w => Sys2Proof.Machine.execRdUndefined off w s
  | .wrStart w value => Sys2Proof.Machine.execWrStart w value s
  | .wrControls w value => Sys2Proof.Machine.execWrControls w value s
  | .wrSrcAddr w value => Sys2Proof.Machine.execWrSrcAddr w value s
  | .wrLen w value => Sys2Proof.Machine.execWrLen w value s
  | .wrDstAddrW4 value => Sys2Proof.Machine.execWrDstAddrW4 value s
  | .wrDstAddrW8 value => Sys2Proof.Machine.execWrDstAddrW8 value s
  | .wrDstAddrNarrow w value => Sys2Proof.Machine.execWrDstAddrNarrow w value s
  | .wrDstAddrHi w value => Sys2Proof.Machine.execWrDstAddrHi w value s
  | .wrSettings w value => Sys2Proof.Machine.execWrSettings w value s
  | .wrIrqEn w value => Sys2Proof.Machine.execWrIrqEn w value s
  | .wrIrqSta w value => Sys2Proof.Machine.execWrIrqSta w value s
  | .wrUndefined off w value => Sys2Proof.Machine.execWrUndefined off w value s

end Sys2Proof.Machine
end

