-- ==== Sys2Proof/Machine/Step.lean ====
section
/-! DEFINITION. One step of the machine (00_scope.md R8: each bus transaction and each reset is one atomic step). -/

namespace Sys2Proof.Machine

/-- One step. A halted device has none (R27, R117); otherwise the next input is taken: the host's transaction is decoded
and performed whole (R39, R68), another agent's store lands (R52), and with nothing pending the device is idle (R132). -/
def step (s : State) : Host.Outcome State Fault Refusal :=
  match s.dev.halted with
  | some why => .fault (.stuck why)
  | none =>
    match s.inputs with
    | [] => idle s
    | .agentStore a b :: rest => .next (agentStores a b rest s)
    | .bus t :: rest => exec (decode s.params.narrowAccess t) (takeTransaction rest s)

/-- The host presents the transaction whose bits are `w`, before whatever it had still to send: the very next step takes
it (log 2). -/
def State.withFetchWord (s : State) (nbits w : Nat) : State := presentNext (txnOfTableWord nbits w) s

end Sys2Proof.Machine
end

