-- ==== Sys2Proof/Safety.lean ====
section
/-! DEFINITION. The terms in which claims about the machine are stated: the invariant of the state, when a transaction
completes, the chunk sequence and the memory recurrence that the transfer engine is to follow. -/

namespace Sys2Proof

/-! ## Transactions by kind -/

/-- A bus Read: EV = 0, DIR = 0 (R57). -/
def Txn.isRead (t : Txn) : Bool := !evField t.descriptor && !dirField t.descriptor

/-- A bus Write: EV = 0, DIR = 1 (R57). -/
def Txn.isWrite (t : Txn) : Bool := !evField t.descriptor && dirField t.descriptor

/-- A reset: descriptor 0x8000 (R57). -/
def Txn.isReset (t : Txn) : Bool := t.descriptor == 0x8000#16

/-- The access width the descriptor's SIZE names (R58). -/
def Txn.width (t : Txn) : Width := Width.ofCode (sizeField t.descriptor)

/-- A Write to a given defined offset. -/
def Txn.writesTo (t : Txn) (off : Offset) : Bool := t.isWrite && offsetField t.descriptor == off

/-- A triggering START write: bit 0 of the data word is 1 (R85). -/
def Txn.isTrigger (t : Txn) : Bool := t.writesTo Config.offStart && t.data.getLsbD 0

end Sys2Proof

namespace Sys2Proof.Machine

/-! ## The invariant -/

/-- What IRQ_STA can hold between transactions: bits 31:7 are 0 and it is not PENDING alone (10_state.md R25). -/
def StatusLegal (sta : Word) : Prop := sta.extractLsb' 7 25 = 0#25 ∧ sta ≠ 0x40#32

/-- The invariant of the machine between steps. -/
structure Inv (s : State) : Prop where
  /-- The memory keeps its canonical form. -/
  memory : Memory.wf s.mem
  /-- `irq_out = LineFn(bank)` (R26). -/
  line : s.dev.irqOut = lineFn s.dev.bank
  /-- IRQ_STA holds a legal value (R25). -/
  status : StatusLegal s.dev.bank.irqSta

/-! ## The transfer the registers describe -/

/-- The chunk size a trigger runs with: CONTROLS[7:0], and 1 where that is 0 under `clamp1` (R98, R99). It is 0 exactly
where the zero-chunk policy runs no transfer. -/
def effectiveStep (p : Params) (b : Bank) : Nat :=
  if b.controls.extractLsb' 0 8 = 0#8 then (if p.zeroChunk = .clamp1 then 1 else 0)
  else (b.controls.extractLsb' 0 8).toNat

/-- The size of the first chunk, which no later chunk exceeds: min(step, n) (R100, R102). -/
def firstChunk (p : Params) (b : Bank) : Nat := min (effectiveStep p b) (b.len.toNat + 1)

/-- Both byte ranges of the first chunk end at or below 2^64 (R44). -/
def TransferFits (p : Params) (b : Bank) : Prop :=
  (srcAbs p b).toNat + firstChunk p b ≤ 2 ^ 64 ∧ (dstCur b).toNat + firstChunk p b ≤ 2 ^ 64

/-- A trigger moves data: the step is at least 1 and the ranges fit. The condition rests on decisions D3 (`clamp1`),
D8 (the ranges) and D5 (the 64-bit wrapping sum, log 10). -/
def TransferRuns (p : Params) (b : Bank) : Prop := 1 ≤ effectiveStep p b ∧ TransferFits p b

/-- The number of chunks, ceil(n / s) (R101). -/
def chunkCount (n s : Nat) : Nat := (n + s - 1) / s

/-- The chunk sizes of R101: all but the last are s, the last is what is left. -/
def chunkSizes (n s : Nat) : List Nat :=
  List.replicate (chunkCount n s - 1) s ++ [n - (chunkCount n s - 1) * s]

/-- The effect of one chunk on memory, seen as a function from address to byte (R102): byte dst + j becomes the byte
that src + j had, for every j below k. -/
def copyOnce (src dst : Addr) (k : Nat) (M : Addr → Byte) : Addr → Byte :=
  fun a => if (a - dst).toNat < k then M (src + (a - dst)) else M a

/-- The memory after chunks of the given sizes: M_i from M_{i-1} (R102). -/
def memoryAfter (src dst : Addr) (sizes : List Nat) (M : Addr → Byte) : Addr → Byte :=
  sizes.foldl (fun M k => copyOnce src dst k M) M

/-- An address lies in the k bytes at `base`. -/
def InRange (base : Addr) (k : Nat) (a : Addr) : Prop := base.toNat ≤ a.toNat ∧ a.toNat < base.toNat + k

/-- The k-byte ranges at two addresses have no byte in common (R102). -/
def RangesDisjoint (x y : Addr) (k : Nat) : Prop := x.toNat + k ≤ y.toNat ∨ y.toNat + k ≤ x.toNat

/-! ## When a transaction completes -/

/-- The bus admits the transaction's width under the state's NARROW_ACCESS (R36). -/
def WidthAdmitted (s : State) (t : Txn) : Prop := t.width.isNarrow = true → s.params.narrowAccess = .literal

/-- The host's next transaction is `t`, and the device is running. -/
def Pending (s : State) (t : Txn) (rest : List Input) : Prop :=
  s.dev.halted = none ∧ s.inputs = .bus t :: rest

/-- When a transaction completes with outcome Ok (R11, R114): it is no reserved descriptor, its width is admitted, and
if it triggers then either the transfer runs or policy `reject` turns a zero chunk away. -/
def Completes (s : State) (t : Txn) : Prop :=
  (evField t.descriptor = true → t.isReset = true) ∧
  (evField t.descriptor = false → WidthAdmitted s t) ∧
  (t.isTrigger = true →
    (effectiveStep s.params s.dev.bank = 0 ∧ s.params.zeroChunk = .reject) ∨
    TransferRuns s.params s.dev.bank)

end Sys2Proof.Machine
end

