-- ==== Sys2Proof/Certificates/Slice0/Obligations.lean ====
section
/-! DEFINITION. The statements about the machine that the provers settle, in the order encoding, step, reads, writes,
START and the transfer engine, interrupt, whole-machine rules, reset. -/

open Sys2Proof Sys2Proof.Machine

/-! ## Encoding and decoding (30_encoding.md) -/

/-- Decoding the encoding of a well-formed instruction gives it back, with every operand it may have, under either value
of NARROW_ACCESS (R57 to R61, R68). The descriptor's layout is the spec's decision D2. -/
def Obligations.DecodeOfEncodeIsTheInstruction : Prop :=
  ∀ (p : NarrowAccess) (i : Instr), wellFormed p i = true → decode p (encode i) = i

/-- No bit of a transaction is dropped by decoding: the descriptor comes back whole from the decoded instruction, and so
does the data word of a transaction that carries one (R57, R67). The zero in an unused data lane is log 2. -/
def Obligations.EncodeOfDecodeKeepsEveryBit : Prop :=
  ∀ (p : NarrowAccess) (t : Txn),
    (encode (decode p t)).descriptor = t.descriptor ∧
    (encode (decode p t)).data = if t.carriesData then t.data else 0#64

/-- The decoder is total and answers only well-formed instructions (R68). -/
def Obligations.DecodedTransactionIsWellFormed : Prop :=
  ∀ (p : NarrowAccess) (t : Txn), wellFormed p (decode p t) = true

/-- The decoder agrees with the opcode table read as match and mask rows with priorities, on all 65536 descriptors under
both values of NARROW_ACCESS (R68). -/
def Obligations.DecoderFollowsTheOpcodeTable : Prop :=
  ∀ (p : NarrowAccess) (t : Txn),
    (tableRow p t.descriptor).map (·.mnemonic) = some (decode p t).mnemonic

/-- Two different rows of one priority never apply to one descriptor, so the table's reading is unambiguous (R68). -/
def Obligations.OpcodeRowsOfOnePriorityDoNotOverlap : Prop :=
  ∀ r ∈ opcodeTable, ∀ q ∈ opcodeTable, r ≠ q → r.priority = q.priority →
    ∀ (p : NarrowAccess) (d : BitVec 16), ¬(r.applies p d = true ∧ q.applies p d = true)

/-- Words of the spec's own decode table (95_test_vectors.md 2.1, R69) decode to the instructions it names. -/
def Obligations.DecodeTableVectors : Prop :=
  (∀ p x, decode p ⟨0x8000#16, x⟩ = .reset) ∧
  (∀ p x, decode p ⟨0x9000#16, x⟩ = .reserved 0x1000#15) ∧
  (∀ p x, decode p ⟨0x4000#16, x⟩ = .rdStart .w4) ∧
  (∀ p x, decode p ⟨0x7058#16, x⟩ = .wrIrqSta .w8 x) ∧
  (∀ p x, decode p ⟨0x5FFF#16, x⟩ = .wrUndefined 0xFFF#12 .w4 x) ∧
  (∀ p x, decode p ⟨0x4012#16, x⟩ = .rdUndefined 0x012#12 .w4) ∧
  (∀ x, decode .refuse ⟨0x2054#16, x⟩ = .narrowRefuse .w2 0x054#12 .read) ∧
  (∀ x, decode .literal ⟨0x2054#16, x⟩ = .rdIrqEn .w2) ∧
  (∀ x, decode .refuse ⟨0x0001#16, x⟩ = .narrowRefuse .w1 0x001#12 .read) ∧
  (∀ x, decode .literal ⟨0x0001#16, x⟩ = .rdUndefined 0x001#12 .w1) ∧
  assemble (.write 0x000#64 0x1#64 .w4) = ⟨0x5000#16, 0x1#64⟩ ∧
  assemble (.read 0x010#64 .w8) = ⟨0x6010#16, 0#64⟩

/-- The device decodes only the low 12 bits of a bus address, for reads and for writes (R56). -/
def Obligations.DeviceSeesLowTwelveAddressBits : Prop :=
  ∀ (address : Addr) (w : Width) (value : DWord),
    assemble (.read address w) = assemble (.read (address &&& 0xFFF#64) w) ∧
    assemble (.write address value w) = assemble (.write (address &&& 0xFFF#64) value w) ∧
    offsetField (assemble (.read address w)).descriptor = (address &&& 0xFFF#64).setWidth 12 ∧
    offsetField (assemble (.write address value w)).descriptor = (address &&& 0xFFF#64).setWidth 12

/-! ## The step -/

/-- With a transaction pending on a running device, the step is exec of the decoded instruction on the state in which
the transaction has been taken: it has left the input list and the place has advanced by one (R8, R15, R68; log 2). -/
def Obligations.StepRunsTheDecodedTransaction : Prop :=
  ∀ (s : State) (t : Txn) (rest : List Input), Pending s t rest →
    step s = exec (decode s.params.narrowAccess t) { s with inputs := rest, place := s.place + 1 }

/-- While the device is halted no step is enabled, whatever is pending, a reset included (R27, R136; decision D15,
log 6). -/
def Obligations.HaltedDeviceTakesNoStep : Prop :=
  ∀ (s : State) (r : HaltReason), s.dev.halted = some r → step s = .fault (.stuck r)

/-- With nothing pending the device holds its state (R132, log 3); another agent's store lands between device steps and
changes that one byte of memory and nothing else (R52, decision D17, log 4). -/
def Obligations.BetweenTransactionsOnlyAgentsAct : Prop :=
  ∀ s : State, s.dev.halted = none →
    (s.inputs = [] → step s = .next s) ∧
    (∀ a b rest, s.inputs = .agentStore a b :: rest →
      ∃ t, step s = .next t ∧ t.inputs = rest ∧ t.dev = s.dev ∧ t.params = s.params ∧ t.place = s.place ∧
        t.response = s.response ∧ t.log = s.log ∧ t.port = s.port ∧ t.mem.readByte a = b ∧
        ∀ x, x ≠ a → t.mem.readByte x = s.mem.readByte x)

/-! ## Register reads (40_register_read.md) -/

/-- START, CONTROLS, SRC_ADDR, LEN, SETTINGS and IRQ_EN read as the stored word, zero-extended; nothing but the value
handed back changes (R72, R73, R74, R75, R79, R80). The encodings are those of the rules. Widths 1 and 2 go past the rules'
operand lines: that they reach these rows under `literal` is decision D4, that exec performs a row at any width is log 8,
that all 64 bits are handed back to a narrow requester is log 12. -/
def Obligations.ReadsReturnTheStoredWord : Prop :=
  (∀ p x,
    decode p ⟨0x4000#16, x⟩ = .rdStart .w4 ∧ decode p ⟨0x6000#16, x⟩ = .rdStart .w8 ∧
    decode p ⟨0x4004#16, x⟩ = .rdControls .w4 ∧ decode p ⟨0x6004#16, x⟩ = .rdControls .w8 ∧
    decode p ⟨0x4008#16, x⟩ = .rdSrcAddr .w4 ∧ decode p ⟨0x6008#16, x⟩ = .rdSrcAddr .w8 ∧
    decode p ⟨0x400C#16, x⟩ = .rdLen .w4 ∧ decode p ⟨0x600C#16, x⟩ = .rdLen .w8 ∧
    decode p ⟨0x4018#16, x⟩ = .rdSettings .w4 ∧ decode p ⟨0x6018#16, x⟩ = .rdSettings .w8 ∧
    decode p ⟨0x4054#16, x⟩ = .rdIrqEn .w4 ∧ decode p ⟨0x6054#16, x⟩ = .rdIrqEn .w8) ∧
  ∀ (s : State) (w : Width),
    exec (.rdStart w) s = .next { s with response := some (s.dev.bank.start.setWidth 64) } ∧
    exec (.rdControls w) s = .next { s with response := some (s.dev.bank.controls.setWidth 64) } ∧
    exec (.rdSrcAddr w) s = .next { s with response := some (s.dev.bank.srcAddr.setWidth 64) } ∧
    exec (.rdLen w) s = .next { s with response := some (s.dev.bank.len.setWidth 64) } ∧
    exec (.rdSettings w) s = .next { s with response := some (s.dev.bank.settings.setWidth 64) } ∧
    exec (.rdIrqEn w) s = .next { s with response := some (s.dev.bank.irqEn.setWidth 64) }

/-- The low view of DST_ADDR reads its low half, the full view all 64 bits (also at width 1 and 2 under `literal`),
DST_ADDR_HI its high half at any width; nothing but the value handed back changes (R76, R77, R78). -/
def Obligations.ReadsOfTheDestinationViews : Prop :=
  (∀ p x,
    decode p ⟨0x4010#16, x⟩ = .rdDstAddrW4 ∧ decode p ⟨0x6010#16, x⟩ = .rdDstAddrW8 ∧
    decode .literal ⟨0x0010#16, x⟩ = .rdDstAddrNarrow .w1 ∧ decode .literal ⟨0x2010#16, x⟩ = .rdDstAddrNarrow .w2 ∧
    decode p ⟨0x4014#16, x⟩ = .rdDstAddrHi .w4 ∧ decode p ⟨0x6014#16, x⟩ = .rdDstAddrHi .w8) ∧
  ∀ (s : State) (w : Width),
    exec .rdDstAddrW4 s = .next { s with response := some ((s.dev.bank.dstAddr.extractLsb' 0 32).setWidth 64) } ∧
    exec .rdDstAddrW8 s = .next { s with response := some s.dev.bank.dstAddr } ∧
    exec (.rdDstAddrNarrow w) s = .next { s with response := some s.dev.bank.dstAddr } ∧
    exec (.rdDstAddrHi w) s = .next { s with response := some ((s.dev.bank.dstAddr.extractLsb' 32 32).setWidth 64) }

/-- IRQ_STA reads as the stored status, zero-extended, and reading acknowledges nothing; in a state whose status is
legal, bits 63:7 read as 0 and the value 0x40 is never returned (R81, with the derived R25 for the last clause). -/
def Obligations.ReadOfTheStatus : Prop :=
  (∀ p x, decode p ⟨0x4058#16, x⟩ = .rdIrqSta .w4 ∧ decode p ⟨0x6058#16, x⟩ = .rdIrqSta .w8) ∧
  ∀ (s : State) (w : Width), ∃ t r, exec (.rdIrqSta w) s = .next t ∧
    t = { s with response := some r } ∧ r = s.dev.bank.irqSta.setWidth 64 ∧
    (StatusLegal s.dev.bank.irqSta → r.extractLsb' 7 57 = 0#57 ∧ r ≠ 0x40#64)

/-- A read at any of the undefined offsets, at any admitted width, logs one event and returns 0; nothing else changes
(R82). -/
def Obligations.ReadAtAnUndefinedOffset : Prop :=
  (∀ (s : State) (off : Offset) (w : Width),
    exec (.rdUndefined off w) s =
      .next { s with response := some 0#64, log := s.log ++ [.protocolViolationRead off w] }) ∧
  ∀ (s : State) (t : Txn) (rest : List Input), Pending s t rest → t.isRead = true → WidthAdmitted s t →
    offsetField t.descriptor ∉
      [0x000#12, 0x004#12, 0x008#12, 0x00C#12, 0x010#12, 0x014#12, 0x018#12, 0x054#12, 0x058#12] →
    step s = .next { s with
      inputs := rest, place := s.place + 1, response := some 0#64,
      log := s.log ++ [.protocolViolationRead (offsetField t.descriptor) t.width] }

/-- A Read transaction changes no device state, makes no access on the memory port and leaves memory alone; at an
undefined offset it appends one log event, and at no other (R32). -/
def Obligations.ReadTransactionChangesNoDeviceState : Prop :=
  ∀ (s u : State) (t : Txn) (rest : List Input), Pending s t rest → t.isRead = true → step s = .next u →
    u.dev = s.dev ∧ u.params = s.params ∧ u.mem = s.mem ∧ u.port = s.port ∧
    (undefinedOffset (offsetField t.descriptor) = false → u.log = s.log) ∧
    (undefinedOffset (offsetField t.descriptor) = true →
      u.log = s.log ++ [.protocolViolationRead (offsetField t.descriptor) t.width])

/-- Two identical reads with no write between them return the same value (R41). -/
def Obligations.RepeatedReadReturnsTheSameValue : Prop :=
  ∀ (s u v : State) (t : Txn) (rest : List Input), Pending s t (.bus t :: rest) → t.isRead = true →
    step s = .next u → step u = .next v → v.response = u.response ∧ v.dev = s.dev

/-! ## Register writes (41_register_write.md) -/

/-- CONTROLS, SRC_ADDR, LEN and SETTINGS take value[31:0] of the bus value and nothing else changes (R86, R87, R88, R92);
the bus value of a width-w write is value[8w-1:0], zero-extended. -/
def Obligations.PlainWritesStoreTheLowWord : Prop :=
  (∀ p x,
    decode p ⟨0x5004#16, x⟩ = .wrControls .w4 x ∧ decode p ⟨0x7004#16, x⟩ = .wrControls .w8 x ∧
    decode p ⟨0x5008#16, x⟩ = .wrSrcAddr .w4 x ∧ decode p ⟨0x7008#16, x⟩ = .wrSrcAddr .w8 x ∧
    decode p ⟨0x500C#16, x⟩ = .wrLen .w4 x ∧ decode p ⟨0x700C#16, x⟩ = .wrLen .w8 x ∧
    decode p ⟨0x5018#16, x⟩ = .wrSettings .w4 x ∧ decode p ⟨0x7018#16, x⟩ = .wrSettings .w8 x) ∧
  ∀ (s : State) (w : Width) (value : DWord) (v : Word), v = (value.setWidth (8 * w.bytes)).setWidth 32 →
    exec (.wrControls w value) s = .next { s with
      dev := { s.dev with bank := { s.dev.bank with controls := v } }, response := none } ∧
    exec (.wrSrcAddr w value) s = .next { s with
      dev := { s.dev with bank := { s.dev.bank with srcAddr := v } }, response := none } ∧
    exec (.wrLen w value) s = .next { s with
      dev := { s.dev with bank := { s.dev.bank with len := v } }, response := none } ∧
    exec (.wrSettings w value) s = .next { s with
      dev := { s.dev with bank := { s.dev.bank with settings := v } }, response := none }

/-- A width-4 write to DST_ADDR merges into the low half, any other width replaces all 64 bits, a DST_ADDR_HI write
replaces the high half at any width; nothing else changes (R89, R90, R91). -/
def Obligations.WritesOfTheDestinationViews : Prop :=
  (∀ p x,
    decode p ⟨0x5010#16, x⟩ = .wrDstAddrW4 x ∧ decode p ⟨0x7010#16, x⟩ = .wrDstAddrW8 x ∧
    decode .literal ⟨0x1010#16, x⟩ = .wrDstAddrNarrow .w1 x ∧
    decode .literal ⟨0x3010#16, x⟩ = .wrDstAddrNarrow .w2 x ∧
    decode p ⟨0x5014#16, x⟩ = .wrDstAddrHi .w4 x ∧ decode p ⟨0x7014#16, x⟩ = .wrDstAddrHi .w8 x) ∧
  ∀ (s : State) (w : Width) (value : DWord),
    exec (.wrDstAddrW4 value) s = .next { s with
      dev := { s.dev with bank := { s.dev.bank with
        dstAddr := s.dev.bank.dstAddr.extractLsb' 32 32 ++ value.extractLsb' 0 32 } }, response := none } ∧
    exec (.wrDstAddrW8 value) s = .next { s with
      dev := { s.dev with bank := { s.dev.bank with dstAddr := value } }, response := none } ∧
    exec (.wrDstAddrNarrow w value) s = .next { s with
      dev := { s.dev with bank := { s.dev.bank with
        dstAddr := (value.setWidth (8 * w.bytes)).setWidth 64 } }, response := none } ∧
    exec (.wrDstAddrHi w value) s = .next { s with
      dev := { s.dev with bank := { s.dev.bank with
        dstAddr := (value.setWidth (8 * w.bytes)).setWidth 32 ++ s.dev.bank.dstAddr.extractLsb' 0 32 } },
      response := none }

/-- An IRQ_EN write stores value[31:0] and recomputes the line; IRQ_STA and all else are unchanged (R93). -/
def Obligations.IrqEnWriteStoresAndRecomputes : Prop :=
  (∀ p x, decode p ⟨0x5054#16, x⟩ = .wrIrqEn .w4 x ∧ decode p ⟨0x7054#16, x⟩ = .wrIrqEn .w8 x) ∧
  ∀ (s : State) (w : Width) (value : DWord) (v : Word), v = (value.setWidth (8 * w.bytes)).setWidth 32 →
    exec (.wrIrqEn w value) s = .next { s with
      dev := { s.dev with
        bank := { s.dev.bank with irqEn := v }
        irqOut := v.getLsbD 1 && s.dev.bank.irqSta.getLsbD 6 }
      response := none }

/-- An IRQ_STA write XORs value[5:0] into the status, collapses a status of PENDING alone to 0, and recomputes the line;
all else is unchanged (R94). -/
def Obligations.IrqStaWriteTogglesAndCollapses : Prop :=
  (∀ p x, decode p ⟨0x5058#16, x⟩ = .wrIrqSta .w4 x ∧ decode p ⟨0x7058#16, x⟩ = .wrIrqSta .w8 x) ∧
  ∀ (s : State) (w : Width) (value : DWord) (x u : Word),
    x = s.dev.bank.irqSta ^^^ (value.extractLsb' 0 6).setWidth 32 →
    u = (if x = 0x00000040#32 then 0x00000000#32 else x) →
    exec (.wrIrqSta w value) s = .next { s with
      dev := { s.dev with
        bank := { s.dev.bank with irqSta := u }
        irqOut := s.dev.bank.irqEn.getLsbD 1 && u.getLsbD 6 }
      response := none }

/-- A write at any of the undefined offsets, at any admitted width, logs one event with the bus value; no state changes,
no transfer runs and the line is not recomputed (R95; that the event holds the bus value of R59 is log 11). -/
def Obligations.WriteAtAnUndefinedOffset : Prop :=
  (∀ (s : State) (off : Offset) (w : Width) (value : DWord),
    exec (.wrUndefined off w value) s = .next { s with
      response := none,
      log := s.log ++ [.protocolViolationWrite off w ((value.setWidth (8 * w.bytes)).setWidth 64)] }) ∧
  ∀ (s : State) (t : Txn) (rest : List Input), Pending s t rest → t.isWrite = true → WidthAdmitted s t →
    offsetField t.descriptor ∉
      [0x000#12, 0x004#12, 0x008#12, 0x00C#12, 0x010#12, 0x014#12, 0x018#12, 0x054#12, 0x058#12] →
    step s = .next { s with
      inputs := rest, place := s.place + 1, response := none,
      log := s.log ++ [.protocolViolationWrite (offsetField t.descriptor) t.width
        ((t.data.setWidth (8 * t.width.bytes)).setWidth 64)] }

/-- Only value[8w-1:0] of a data word counts: two writes with one descriptor whose data words agree on those bits do the
same (R59). At an undefined offset this takes in the log event, which holds the bus value and not the data word: the model's
log 11. -/
def Obligations.OnlyMeaningfulDataBitsCount : Prop :=
  ∀ (s : State) (t t' : Txn) (rest : List Input), t.isWrite = true → t'.descriptor = t.descriptor →
    t.data.setWidth (8 * t.width.bytes) = t'.data.setWidth (8 * t.width.bytes) →
    step { s with inputs := .bus t :: rest } = step { s with inputs := .bus t' :: rest }

/-- What a write leaves is what a read of the same register at the same width returns, with the two exceptions of
DST_ADDR's views and of IRQ_STA (R96, whose summary the spec derives from the write and read rules). -/
def Obligations.WriteThenReadReturnsTheWord : Prop :=
  ∀ (s t : State) (w : Width) (v : DWord), w.isNarrow = false →
    (exec (.wrStart w v) s = .next t →
      ∃ u, exec (.rdStart w) t = .next u ∧ u.response = some ((v.setWidth 32).setWidth 64)) ∧
    (exec (.wrControls w v) s = .next t →
      ∃ u, exec (.rdControls w) t = .next u ∧ u.response = some ((v.setWidth 32).setWidth 64)) ∧
    (exec (.wrSrcAddr w v) s = .next t →
      ∃ u, exec (.rdSrcAddr w) t = .next u ∧ u.response = some ((v.setWidth 32).setWidth 64)) ∧
    (exec (.wrLen w v) s = .next t →
      ∃ u, exec (.rdLen w) t = .next u ∧ u.response = some ((v.setWidth 32).setWidth 64)) ∧
    (exec (.wrSettings w v) s = .next t →
      ∃ u, exec (.rdSettings w) t = .next u ∧ u.response = some ((v.setWidth 32).setWidth 64)) ∧
    (exec (.wrIrqEn w v) s = .next t →
      ∃ u, exec (.rdIrqEn w) t = .next u ∧ u.response = some ((v.setWidth 32).setWidth 64)) ∧
    (exec (.wrDstAddrW4 v) s = .next t →
      ∃ u, exec .rdDstAddrW4 t = .next u ∧ u.response = some ((v.setWidth 32).setWidth 64)) ∧
    (exec (.wrDstAddrW8 v) s = .next t → ∃ u, exec .rdDstAddrW8 t = .next u ∧ u.response = some v) ∧
    (exec (.wrDstAddrHi w v) s = .next t →
      ∃ u, exec (.rdDstAddrHi w) t = .next u ∧ u.response = some ((v.setWidth 32).setWidth 64)) ∧
    (exec (.wrIrqSta w v) s = .next t →
      ∃ u, exec (.rdIrqSta w) t = .next u ∧
        u.response = some ((if s.dev.bank.irqSta ^^^ (v.extractLsb' 0 6).setWidth 32 = 0x40#32 then 0#32
          else s.dev.bank.irqSta ^^^ (v.extractLsb' 0 6).setWidth 32).setWidth 64))

/-- Repeating a write to CONTROLS, SRC_ADDR, LEN, DST_ADDR, DST_ADDR_HI, SETTINGS or IRQ_EN leaves the same state
(R41). -/
def Obligations.RepeatedWriteLeavesTheSameState : Prop :=
  ∀ (s t : State) (w : Width) (v : DWord),
    ∀ i ∈ [Instr.wrControls w v, .wrSrcAddr w v, .wrLen w v, .wrDstAddrW4 v, .wrDstAddrW8 v, .wrDstAddrNarrow w v,
        .wrDstAddrHi w v, .wrSettings w v, .wrIrqEn w v],
      exec i s = .next t → exec i t = .next t

/-- The halves of DST_ADDR may be written in either order (R70, SETDST2), while a width-8 write of DST_ADDR undoes an
earlier write of the high half (R138). -/
def Obligations.DestinationHalvesInEitherOrder : Prop :=
  ∀ (s t u t' u' x : State) (hi lo v : DWord),
    exec (.wrDstAddrHi .w4 hi) s = .next t → exec (.wrDstAddrW4 lo) t = .next u →
    exec (.wrDstAddrW4 lo) s = .next t' → exec (.wrDstAddrHi .w4 hi) t' = .next u' →
    exec (.wrDstAddrW8 v) t = .next x →
      u = u' ∧ u.dev.bank.dstAddr = hi.extractLsb' 0 32 ++ lo.extractLsb' 0 32 ∧ x.dev.bank.dstAddr = v

/-! ## The START write and the transfer engine (R85, 42_transfer_engine.md) -/

/-- A START write with bit 0 = 0 stores the raw value and recomputes the line; no transfer runs and nothing else changes
(R85). -/
def Obligations.StartWriteWithoutTrigger : Prop :=
  (∀ p x, decode p ⟨0x5000#16, x⟩ = .wrStart .w4 x ∧ decode p ⟨0x7000#16, x⟩ = .wrStart .w8 x) ∧
  ∀ (s : State) (w : Width) (value : DWord), value.getLsbD 0 = false →
    exec (.wrStart w value) s = .next { s with
      dev := { s.dev with
        bank := { s.dev.bank with start := (value.setWidth (8 * w.bytes)).setWidth 32 }
        irqOut := s.dev.bank.irqEn.getLsbD 1 && s.dev.bank.irqSta.getLsbD 6 }
      response := none }

/-- A START write with bit 0 = 1 whose transfer runs completes: START holds the written value, IRQ_STA is ORed with 0x42,
the line follows, and no other register, parameter or log entry changes (R85, R103, R104). The condition
TransferRuns rests on decisions D3 (`clamp1`), D8 (ranges that end at or below 2^64) and D5 (the 64-bit wrapping sum
BASE + SRC_ADDR, log 10). -/
def Obligations.TriggeredTransferCompletes : Prop :=
  ∀ (s : State) (w : Width) (value : DWord), value.getLsbD 0 = true → TransferRuns s.params s.dev.bank →
    ∃ t, exec (.wrStart w value) s = .next t ∧
      t.dev = { s.dev with
        bank := { s.dev.bank with
          start := (value.setWidth (8 * w.bytes)).setWidth 32
          irqSta := s.dev.bank.irqSta ||| 0x42#32 }
        irqOut := s.dev.bank.irqEn.getLsbD 1 } ∧
      t.params = s.params ∧ t.inputs = s.inputs ∧ t.place = s.place ∧ t.response = none ∧ t.log = s.log

/-- A trigger with CONTROLS[7:0] = 0 follows ZERO_CHUNK_POLICY (R99, R113; the policies and the default are decision
D3, log 1; what the fault carries is log 6): `hang` is a fault that leaves START written and the device halted for good;
`reject` logs one event and recomputes the line; `clamp1` runs the transfer in n one-byte chunks, from the 64-bit wrapping
sum BASE + SRC_ADDR, which is decision D5 (log 10). -/
def Obligations.ZeroChunkFollowsThePolicy : Prop :=
  ∀ (s : State) (w : Width) (value : DWord) (v : Word), value.getLsbD 0 = true →
    s.dev.bank.controls.extractLsb' 0 8 = 0#8 → v = (value.setWidth (8 * w.bytes)).setWidth 32 →
    (s.params.zeroChunk = .hang →
      ∃ u, exec (.wrStart w value) s = .fault (.zeroChunkHang u) ∧
        u = { s with dev := { s.dev with
          bank := { s.dev.bank with start := v }, halted := some .zeroChunkHang } } ∧
        ∀ later, step { u with inputs := later } = .fault (.stuck .zeroChunkHang)) ∧
    (s.params.zeroChunk = .reject →
      exec (.wrStart w value) s = .next { s with
        dev := { s.dev with
          bank := { s.dev.bank with start := v }
          irqOut := s.dev.bank.irqEn.getLsbD 1 && s.dev.bank.irqSta.getLsbD 6 }
        response := none
        log := s.log ++ [.zeroChunkRejected v s.dev.bank.controls] }) ∧
    (s.params.zeroChunk = .clamp1 →
      (s.params.base + s.dev.bank.srcAddr.setWidth 64).toNat + 1 ≤ 2 ^ 64 → s.dev.bank.dstAddr.toNat + 1 ≤ 2 ^ 64 →
      ∃ (t : State) (bufs : List (List Byte)), exec (.wrStart w value) s = .next t ∧
        t.port = s.port ++ bufs.flatMap (fun b =>
          [.memRead (s.params.base + s.dev.bank.srcAddr.setWidth 64) b, .memWrite s.dev.bank.dstAddr b]) ∧
        bufs.map List.length = List.replicate (s.dev.bank.len.toNat + 1) 1 ∧
        t.dev.bank.irqSta = s.dev.bank.irqSta ||| 0x42#32 ∧ t.log = s.log)

/-- A trigger whose first chunk passes 2^64 is refused before any access, and one whose ranges end at or below 2^64 is
not (R44, decision D8). Which of two crossing addresses the refusal names is log 13; the 64-bit wrapping sum
BASE + SRC_ADDR is decision D5 (log 10). -/
def Obligations.ChunkPastTheTopIsRefused : Prop :=
  ∀ (s : State) (w : Width) (value : DWord) (src dst : Addr) (k : Nat), value.getLsbD 0 = true →
    1 ≤ effectiveStep s.params s.dev.bank →
    src = s.params.base + s.dev.bank.srcAddr.setWidth 64 → dst = s.dev.bank.dstAddr →
    k = min (effectiveStep s.params s.dev.bank) (s.dev.bank.len.toNat + 1) →
    (2 ^ 64 < src.toNat + k ∨ 2 ^ 64 < dst.toNat + k →
      ∃ a, exec (.wrStart w value) s = .refused (.chunkCrossesTop a k) ∧
        (a = src ∨ a = dst) ∧ 2 ^ 64 < a.toNat + k) ∧
    (src.toNat + k ≤ 2 ^ 64 → dst.toNat + k ≤ 2 ^ 64 → ∃ t, exec (.wrStart w value) s = .next t)

/-- The chunk sequence law (R101): with n = LEN + 1 and chunk size s, the memory port sees exactly 2·ceil(n/s) accesses,
MemRead and MemWrite in turn, every read from the same source and every write to the same destination; each MemWrite
carries the bytes its MemRead returned (R35, R100), and byte j that MemRead i returned is the byte memory held at
source + j after the i chunks before it (R10, R45, R102); the sizes are ceil(n/s) - 1 times s and then what is left, they
add up to n, and none exceeds s, which is at most 255 (R42). The source address is the 64-bit wrapping sum
BASE + SRC_ADDR: decision D5, log 10. The port trace and a byte of memory that nothing has written are logs 7 and 5. -/
def Obligations.PortSeesTheChunkSequence : Prop :=
  ∀ (s t : State) (w : Width) (value : DWord) (n step : Nat) (src dst : Addr), value.getLsbD 0 = true →
    TransferRuns s.params s.dev.bank → exec (.wrStart w value) s = .next t →
    n = s.dev.bank.len.toNat + 1 → step = effectiveStep s.params s.dev.bank →
    src = s.params.base + s.dev.bank.srcAddr.setWidth 64 → dst = s.dev.bank.dstAddr →
    ∃ bufs : List (List Byte),
      t.port = s.port ++ bufs.flatMap (fun b => [.memRead src b, .memWrite dst b]) ∧
      bufs.map List.length = chunkSizes n step ∧
      bufs.length = (n + step - 1) / step ∧
      (bufs.map List.length).sum = n ∧
      (∀ b ∈ bufs, 1 ≤ b.length ∧ b.length ≤ step ∧ b.length ≤ 255) ∧
      ∀ (i : Nat) (b : List Byte), bufs[i]? = some b → ∀ j : Nat, j < b.length →
        b[j]? = some (memoryAfter src dst ((chunkSizes n step).take i) s.mem.readByte (src + BitVec.ofNat 64 j))

/-- The memory a transfer leaves is the recurrence of R102: chunk by chunk, byte dst + j becomes the byte src + j of the
memory before that chunk, overlap included. The source address is the 64-bit wrapping sum BASE + SRC_ADDR: decision D5,
log 10. -/
def Obligations.MemoryFollowsTheChunkRecurrence : Prop :=
  ∀ (s t : State) (w : Width) (value : DWord), value.getLsbD 0 = true →
    TransferRuns s.params s.dev.bank → exec (.wrStart w value) s = .next t →
    ∀ a : Addr, t.mem.readByte a =
      memoryAfter (s.params.base + s.dev.bank.srcAddr.setWidth 64) s.dev.bank.dstAddr
        (chunkSizes (s.dev.bank.len.toNat + 1) (effectiveStep s.params s.dev.bank)) s.mem.readByte a

/-- The frame of a transfer in memory: only the first min(s, n) bytes at DST_ADDR can change, whatever n is (R102,
R140). -/
def Obligations.TransferWritesOnlyTheFirstChunksBytes : Prop :=
  ∀ (s t : State) (w : Width) (value : DWord), value.getLsbD 0 = true →
    exec (.wrStart w value) s = .next t →
    ∀ a : Addr, ¬InRange (dstCur s.dev.bank) (firstChunk s.params s.dev.bank) a →
      t.mem.readByte a = s.mem.readByte a

/-- Where source and destination do not overlap, the first min(s, n) destination bytes become the source bytes (R102). The
source bytes are those at src_abs (R98), the 64-bit wrapping sum BASE + SRC_ADDR: decision D5, log 10. -/
def Obligations.DisjointTransferCopiesTheSource : Prop :=
  ∀ (s t : State) (w : Width) (value : DWord), value.getLsbD 0 = true →
    TransferRuns s.params s.dev.bank → exec (.wrStart w value) s = .next t →
    RangesDisjoint (srcAbs s.params s.dev.bank) (dstCur s.dev.bank) (firstChunk s.params s.dev.bank) →
    ∀ j : Nat, j < firstChunk s.params s.dev.bank →
      t.mem.readByte (dstCur s.dev.bank + BitVec.ofNat 64 j) =
        s.mem.readByte (srcAbs s.params s.dev.bank + BitVec.ofNat 64 j)

/-- SETTINGS, START[31:1] and CONTROLS[31:8] have no effect on a transfer: two triggers that differ only in them have the
same outcome, memory, port accesses, status and line (R108). -/
def Obligations.UninterpretedBitsDoNotChangeATransfer : Prop :=
  ∀ (s s' : State) (w : Width) (value value' : DWord) (a b c : Word),
    s' = { s with dev := { s.dev with bank := { s.dev.bank with start := a, settings := b, controls := c } } } →
    c.extractLsb' 0 8 = s.dev.bank.controls.extractLsb' 0 8 →
    value.getLsbD 0 = true → value'.getLsbD 0 = true →
    (∀ t, exec (.wrStart w value) s = .next t →
      ∃ t', exec (.wrStart w value') s' = .next t' ∧ t'.mem = t.mem ∧ t'.port = t.port ∧
        t'.dev.bank.irqSta = t.dev.bank.irqSta ∧ t'.dev.irqOut = t.dev.irqOut) ∧
    (∀ r, exec (.wrStart w value) s = .refused r → exec (.wrStart w value') s' = .refused r) ∧
    (∀ u, exec (.wrStart w value) s = .fault (.zeroChunkHang u) →
      ∃ u', exec (.wrStart w value') s' = .fault (.zeroChunkHang u') ∧ u'.mem = u.mem ∧ u'.port = u.port)

/-! ## The interrupt (60_exceptions.md) -/

/-- The line is a function of IRQ_EN[1] and IRQ_STA[6] alone: asserted exactly when both are 1, the same in any two banks
that agree on them (R118). -/
def Obligations.LineIsAFunctionOfEnableAndPending : Prop :=
  (∀ b : Bank, lineFn b = true ↔ b.irqEn.getLsbD 1 = true ∧ b.irqSta.getLsbD 6 = true) ∧
  ∀ b b' : Bank, b.irqEn.getLsbD 1 = b'.irqEn.getLsbD 1 → b.irqSta.getLsbD 6 = b'.irqSta.getLsbD 6 →
    lineFn b = lineFn b'

/-- The line is driven at the end of every START, IRQ_EN and IRQ_STA write that completes, to LineFn of the bank, and at
reset, to false; no other step changes it (R119; the level at reset is decision D10, log 16). -/
def Obligations.LineIsDrivenOnlyWhereSaid : Prop :=
  ∀ (s u : State) (t : Txn) (rest : List Input), Pending s t rest → step s = .next u →
    (t.writesTo 0x000#12 = true ∨ t.writesTo 0x054#12 = true ∨ t.writesTo 0x058#12 = true →
      u.dev.irqOut = (u.dev.bank.irqEn.getLsbD 1 && u.dev.bank.irqSta.getLsbD 6)) ∧
    (t.isReset = true → u.dev.irqOut = false) ∧
    (t.writesTo 0x000#12 = false → t.writesTo 0x054#12 = false → t.writesTo 0x058#12 = false → t.isReset = false →
      u.dev.irqOut = s.dev.irqOut)

/-- Clearing DONE_EN deasserts the line at once and keeps IRQ_STA, so setting it again re-asserts the line if PENDING is
still 1; completion latches the status whether the line is enabled or not; an acknowledge that clears PENDING deasserts
the line at once (R121, with R85 and R103 for the completion). When a trigger completes is not R121's: the condition
TransferRuns rests on decisions D3 (`clamp1`), D8 (ranges that end at or below 2^64) and D5 (the 64-bit wrapping sum
BASE + SRC_ADDR, log 10). -/
def Obligations.MaskingKeepsTheStatus : Prop :=
  ∀ (s : State) (w : Width) (off on ack : DWord), off.getLsbD 1 = false → on.getLsbD 1 = true →
    (∃ t, exec (.wrIrqEn w off) s = .next t ∧ t.dev.irqOut = false ∧ t.dev.bank.irqSta = s.dev.bank.irqSta ∧
      ∃ u, exec (.wrIrqEn w on) t = .next u ∧ u.dev.irqOut = s.dev.bank.irqSta.getLsbD 6 ∧
        u.dev.bank.irqSta = s.dev.bank.irqSta) ∧
    (∀ v : DWord, v.getLsbD 0 = true → TransferRuns s.params s.dev.bank →
      ∃ t, exec (.wrStart w v) s = .next t ∧ t.dev.bank.irqSta.getLsbD 1 = true ∧
        t.dev.bank.irqSta.getLsbD 6 = true) ∧
    (∃ t, exec (.wrIrqSta w ack) s = .next t ∧
      (t.dev.bank.irqSta.getLsbD 6 = false → t.dev.irqOut = false))

/-- Writing back the value that a read of IRQ_STA returned always leaves 0 and deasserts the line, from any legal status
(R70 `ACKREAD`, R142, R126). -/
def Obligations.WritingBackTheReadStatusClearsIt : Prop :=
  ∀ (s t u : State) (w : Width) (r : DWord), StatusLegal s.dev.bank.irqSta →
    exec (.rdIrqSta w) s = .next t → t.response = some r → exec (.wrIrqSta w r) t = .next u →
    u.dev.bank.irqSta = 0#32 ∧ u.dev.irqOut = false

/-- PENDING is set only by a transfer that completes; it is cleared only by an IRQ_STA write or by reset, and then the
whole status is 0 (R24, R122). That a transfer runs is asked of the 64-bit sum of decision D5 (log 10). -/
def Obligations.PendingRisesByCompletionFallsByAcknowledge : Prop :=
  ∀ s u : State, step s = .next u →
    (s.dev.bank.irqSta.getLsbD 6 = false → u.dev.bank.irqSta.getLsbD 6 = true →
      ∃ t rest, Pending s t rest ∧ t.isTrigger = true ∧ TransferRuns s.params s.dev.bank) ∧
    (s.dev.bank.irqSta.getLsbD 6 = true → u.dev.bank.irqSta.getLsbD 6 = false →
      ∃ t rest, Pending s t rest ∧ (t.writesTo 0x058#12 = true ∨ t.isReset = true) ∧ u.dev.bank.irqSta = 0#32)

/-- The invariant holds at construction with any parameters, and so at reset. -/
def Obligations.InvariantHoldsAtReset : Prop :=
  (∀ p : Params, Inv (State.construct p)) ∧ Inv State.reset

/-- Every step keeps the invariant: memory stays in canonical form, irq_out = LineFn(bank) (R26), IRQ_STA[31:7] = 0 and
IRQ_STA ≠ 0x40 (R25); and the state a zero-chunk hang leaves has it too. -/
def Obligations.StepKeepsTheInvariant : Prop :=
  ∀ s : State, Inv s →
    (∀ u, step s = .next u → Inv u) ∧ (∀ u, step s = .fault (.zeroChunkHang u) → Inv u)

/-! ## Rules of the whole machine -/

/-- Only the bus write entry point and the reset entry point change the bank; IRQ_STA changes only in a START or an
IRQ_STA write or a reset, so the engine's change of it is that write's (R33). -/
def Obligations.BankChangesOnlyByWriteOrReset : Prop :=
  ∀ s u : State, step s = .next u →
    (u.dev.bank ≠ s.dev.bank →
      ∃ t rest, Pending s t rest ∧ (t.isWrite = true ∨ t.isReset = true)) ∧
    (u.dev.bank.irqSta ≠ s.dev.bank.irqSta →
      ∃ t rest, Pending s t rest ∧
        (t.isTrigger = true ∨ t.writesTo 0x058#12 = true ∨ t.isReset = true))

/-- Memory changes only in a triggered transfer that runs or by another agent's store, and the memory port is used only
by such a transfer (R30, R52, R97, R104). Agents' stores as steps of their own are log 4; that a transfer runs is asked of
the 64-bit sum of decision D5 (log 10). -/
def Obligations.MemoryChangesOnlyByTransferOrAgent : Prop :=
  ∀ s u : State, step s = .next u →
    (u.mem ≠ s.mem →
      (∃ t rest, Pending s t rest ∧ t.isTrigger = true ∧ TransferRuns s.params s.dev.bank) ∨
      (∃ a b rest, s.inputs = .agentStore a b :: rest)) ∧
    (u.port ≠ s.port →
      ∃ t rest, Pending s t rest ∧ t.isTrigger = true ∧ TransferRuns s.params s.dev.bank)

/-- No step changes a construction-time parameter, BASE among them, reset included (R7, R28), or halts the device with a
next state (R27). -/
def Obligations.ParametersNeverChange : Prop :=
  ∀ s u : State, step s = .next u → u.params = s.params ∧ s.dev.halted = none ∧ u.dev.halted = none

/-- A transaction that completes leaves the host's sequence and advances the place by one; no other step moves the place
(R15; the sequence held in State is log 2). -/
def Obligations.EachTransactionAdvancesThePlace : Prop :=
  ∀ s u : State, step s = .next u →
    (∀ t rest, Pending s t rest → u.inputs = rest ∧ u.place = s.place + 1) ∧
    ((∀ t rest, ¬Pending s t rest) → u.place = s.place)

/-- A step appends at most one event to the log: for a Read or a Write at an undefined offset its protocol violation
(R82, R95), for a trigger with a zero chunk under `reject` its rejection (R113), with the operands R115 gives them; no
other step appends one, and the log is never cleared (R131, R134). That a write's event holds the bus value is log 11. -/
def Obligations.EachStepLogsAtMostOneEvent : Prop :=
  ∀ s u : State, step s = .next u →
    u.log = s.log ∨
    ∃ t rest e, Pending s t rest ∧ u.log = s.log ++ [e] ∧
      ((t.isRead = true ∧ undefinedOffset (offsetField t.descriptor) = true ∧
          e = .protocolViolationRead (offsetField t.descriptor) t.width) ∨
       (t.isWrite = true ∧ undefinedOffset (offsetField t.descriptor) = true ∧
          e = .protocolViolationWrite (offsetField t.descriptor) t.width
            ((t.data.setWidth (8 * t.width.bytes)).setWidth 64)) ∨
       (t.isTrigger = true ∧ s.params.zeroChunk = .reject ∧ effectiveStep s.params s.dev.bank = 0 ∧
          e = .zeroChunkRejected ((t.data.setWidth (8 * t.width.bytes)).setWidth 32) s.dev.bank.controls))

/-- A running device completes a pending transaction exactly when it is no reserved descriptor, its width is admitted,
and, if it triggers, its transfer runs or policy `reject` turns it away (R11, R114). The conditions are the spec's
decisions D2, D3, D4 and D8, and D5 (log 10) for the sum BASE + SRC_ADDR whose range must fit. -/
def Obligations.StepCompletesExactlyWhenAdmitted : Prop :=
  ∀ (s : State) (t : Txn) (rest : List Input), Pending s t rest →
    ((∃ u, step s = .next u) ↔ Completes s t)

/-- The outcome of a running device's step, by its cause code (R115), with the conditions tried in the order of R117:
reserved descriptor, narrow access, undefined offset, zero-chunk policy, chunk past the top. The numbers are the spec's
decision D16, the sum BASE + SRC_ADDR whose range must fit is decision D5 (log 10). -/
def Obligations.OutcomeFollowsThePriorityOfConditions : Prop :=
  ∀ (s : State) (t : Txn) (rest : List Input), Pending s t rest →
    (evField t.descriptor = true →
      outcomeCode s (step s) = some (if t.descriptor = 0x8000#16 then 0 else 6)) ∧
    (evField t.descriptor = false →
      (¬WidthAdmitted s t → outcomeCode s (step s) = some 5) ∧
      (WidthAdmitted s t →
        (undefinedOffset (offsetField t.descriptor) = true →
          outcomeCode s (step s) = some (if t.isRead then 1 else 2)) ∧
        (undefinedOffset (offsetField t.descriptor) = false →
          (t.isTrigger = false → outcomeCode s (step s) = some 0) ∧
          (t.isTrigger = true →
            (effectiveStep s.params s.dev.bank = 0 →
              outcomeCode s (step s) = some (if s.params.zeroChunk = .hang then 4 else 3)) ∧
            (effectiveStep s.params s.dev.bank ≠ 0 →
              (TransferFits s.params s.dev.bank → outcomeCode s (step s) = some 0) ∧
              (¬TransferFits s.params s.dev.bank → outcomeCode s (step s) = some 7))))))

/-- A descriptor with EV = 1 other than 0x8000 is refused (R64), and a width-1 or width-2 access under `refuse` is refused
whatever its offset (R65), each with the descriptor recorded (R115); decisions D2 and D4. -/
def Obligations.ReservedAndNarrowTransactionsAreRefused : Prop :=
  (∀ (s : State) (rest : BitVec 15),
    exec (.reserved rest) s = .refused (.reservedDescriptor (0x8000#16 ||| rest.setWidth 16))) ∧
  (∀ (s : State) (w : Width) (off : Offset) (acc : Access),
    exec (.narrowRefuse w off acc) s =
      .refused (.narrowAccess (busDescriptor w (acc != .read) off))) ∧
  ∀ (s : State) (t : Txn) (rest : List Input), Pending s t rest →
    (evField t.descriptor = true → t.descriptor ≠ 0x8000#16 →
      step s = .refused (.reservedDescriptor t.descriptor)) ∧
    (evField t.descriptor = false → t.width.isNarrow = true → s.params.narrowAccess = .refuse →
      step s = .refused (.narrowAccess t.descriptor))

/-- Under `NARROW_ACCESS = literal` a width-1 or width-2 access at a defined offset does what the width-8 access at that
offset does, a write with the narrow value zero-extended (R36, R65, R59; decision D4). -/
def Obligations.NarrowAccessFollowsTheWidthEightRules : Prop :=
  ∀ (s : State) (w : Width) (off : Offset) (value : DWord) (rest : List Input), s.params.narrowAccess = .literal →
    w.isNarrow = true → undefinedOffset off = false →
    step { s with inputs := .bus (encodeRead w off) :: rest } =
      step { s with inputs := .bus (encodeRead .w8 off) :: rest } ∧
    step { s with inputs := .bus (encodeWrite w off value) :: rest } =
      step { s with inputs := .bus (encodeWrite .w8 off ((value.setWidth (8 * w.bytes)).setWidth 64)) :: rest }

/-- The configuration sequence of R137 in the form of the pseudo-instructions CONFIG and TRIGGER (R70): from any running
state, five transactions later the registers hold what was written, the status shows completion and memory holds the
transfer the recurrence gives. The source address is the 64-bit wrapping sum BASE + SRC_ADDR: decision D5, log 10; the
sequence of transactions and the place in it, held in State, are log 2. -/
def Obligations.ConfiguredTransferRunsToCompletion : Prop :=
  ∀ (s : State) (src : Word) (n : Nat) (dst : DWord) (c : Nat), s.dev.halted = none → 1 ≤ n → n ≤ 2 ^ 32 → 1 ≤ c →
    c ≤ 255 → (s.params.base + src.setWidth 64).toNat + min c n ≤ 2 ^ 64 → dst.toNat + min c n ≤ 2 ^ 64 →
    ∃ t : State,
      Host.Core.run core 5
        (presentRequests ((Pseudo.config src n dst c).expand ++ Pseudo.trigger.expand) { s with inputs := [] })
        = .next t ∧
      t.inputs = [] ∧ t.place = s.place + 5 ∧
      t.dev.bank = { s.dev.bank with
        start := 1#32, controls := BitVec.ofNat 32 c, srcAddr := src, len := BitVec.ofNat 32 (n - 1), dstAddr := dst
        irqSta := s.dev.bank.irqSta ||| 0x42#32 } ∧
      ∀ a, t.mem.readByte a =
        memoryAfter (s.params.base + src.setWidth 64) dst (chunkSizes n c) s.mem.readByte a

/-! ## Reset and the byte view -/

/-- The state after reset: every register at the value of R31, the line deasserted and the device running (R31, R135),
the default parameters (R7). The level is decision D10 (log 16); the fields that are the model's own are log 19. -/
def Obligations.ResetStateHoldsTheResetValues : Prop :=
  State.reset.dev.bank.start = 0x00000000#32 ∧ State.reset.dev.bank.controls = 0x00001FFF#32 ∧
  State.reset.dev.bank.srcAddr = 0x00000000#32 ∧ State.reset.dev.bank.len = 0x00003FFF#32 ∧
  State.reset.dev.bank.dstAddr = 0x0000000000000000#64 ∧ State.reset.dev.bank.settings = 0x00000000#32 ∧
  State.reset.dev.bank.irqEn = 0x00000000#32 ∧ State.reset.dev.bank.irqSta = 0x00000000#32 ∧
  State.reset.dev.irqOut = false ∧ State.reset.dev.halted = none ∧
  State.reset.params = { base := 0x0000000070000000#64, zeroChunk := .hang, narrowAccess := .refuse }

/-- RESET, descriptor 0x8000, restores every register and drives the line false; memory, the parameters, the log and all
else are unchanged (R134; the level is decision D10, log 16; that `halted` is not written is log 9). -/
def Obligations.ResetRestoresTheBank : Prop :=
  (∀ p x, decode p ⟨0x8000#16, x⟩ = .reset) ∧
  ∀ s : State, exec .reset s = .next { s with
    dev := {
      bank := {
        start := 0x00000000#32, controls := 0x00001FFF#32, srcAddr := 0x00000000#32, len := 0x00003FFF#32
        dstAddr := 0x0000000000000000#64, settings := 0x00000000#32, irqEn := 0x00000000#32, irqSta := 0x00000000#32 }
      irqOut := false
      halted := s.dev.halted }
    response := none }

/-- A w-byte access has w bytes, byte k of them holds bits [8k+7:8k] of the value, and put together again they give the
bus value (R34; the lane mapping is PRESUMED, the spec's own G-1, log 15). -/
def Obligations.ByteLanesRebuildTheBusValue : Prop :=
  ∀ (w : Width) (value : DWord),
    (busLanes w value).length = w.bytes ∧
    (∀ k : Nat, k < w.bytes → (busLanes w value)[k]? = some (value.extractLsb' (8 * k) 8)) ∧
    ofLanes (busLanes w value) = (value.setWidth (8 * w.bytes)).setWidth 64
end

