-- ==== Sys2Proof/Laws/Decode.lean ====
section
/-! SUPPORT. The fields of a descriptor that was put together from fields, and how a decoded transaction is found again:
one lemma per function of Decode.lean. -/

namespace Sys2Proof

/-! ## Widths -/

@[simp] theorem Width.ofCode_code (w : Width) : Width.ofCode w.code = w := by cases w <;> decide

@[simp] theorem Width.code_ofCode (c : BitVec 2) : (Width.ofCode c).code = c := by
  revert c
  decide

/-! ## Descriptors from fields -/

@[simp] theorem evField_busDescriptor (w : Width) (dir : Bool) (off : Offset) :
    evField (busDescriptor w dir off) = false := by
  cases w <;> cases dir <;> simp [evField, busDescriptor, Width.code]

@[simp] theorem sizeField_busDescriptor (w : Width) (dir : Bool) (off : Offset) :
    sizeField (busDescriptor w dir off) = w.code := by
  apply BitVec.eq_of_getLsbD_eq
  intro i hi
  have h : i = 0 ∨ i = 1 := by omega
  rcases h with rfl | rfl <;> cases dir <;> simp [sizeField, busDescriptor]

@[simp] theorem dirField_busDescriptor (w : Width) (dir : Bool) (off : Offset) :
    dirField (busDescriptor w dir off) = dir := by
  cases dir <;> simp [dirField, busDescriptor]

@[simp] theorem offsetField_busDescriptor (w : Width) (dir : Bool) (off : Offset) :
    offsetField (busDescriptor w dir off) = off := by
  apply BitVec.eq_of_getLsbD_eq
  intro i hi
  have h13 : i < 13 := by omega
  have h16 : i < 16 := by omega
  simp [offsetField, busDescriptor, hi, h13, h16]

/-- A bus descriptor is the one its fields make. -/
theorem busDescriptor_fields {d : BitVec 16} (h : evField d = false) :
    busDescriptor (Width.ofCode (sizeField d)) (dirField d) (offsetField d) = d := by
  apply BitVec.eq_of_getLsbD_eq
  intro i hi
  unfold busDescriptor
  rw [Width.code_ofCode]
  by_cases h1 : i < 12
  · have h13 : i < 13 := by omega
    simp [offsetField, h1, h13, hi]
  · have h2 : i = 12 ∨ i = 13 ∨ i = 14 ∨ i = 15 := by omega
    rcases h2 with rfl | rfl | rfl | rfl <;> simp_all [offsetField, sizeField, dirField, evField]

@[simp] theorem evField_eventDescriptor (rest : BitVec 15) : evField (eventDescriptor rest) = true := by
  simp [evField, eventDescriptor]

@[simp] theorem eventField_eventDescriptor (rest : BitVec 15) : eventField (eventDescriptor rest) = rest := by
  apply BitVec.eq_of_getLsbD_eq
  intro i hi
  have h16 : i < 16 := by omega
  have h : (0x8000#16)[i] = false := by
      rw [← BitVec.getLsbD_eq_getElem]
      interval_cases i <;> decide
  simp [eventField, eventDescriptor, hi, h, h16]

/-- A non-bus event's descriptor is the one its 15 bits make. -/
theorem eventDescriptor_fields {d : BitVec 16} (h : evField d = true) : eventDescriptor (eventField d) = d := by
  apply BitVec.eq_of_getLsbD_eq
  intro i hi
  by_cases h1 : i < 15
  · have h2 : (0x8000#16)[i] = false := by
      rw [← BitVec.getLsbD_eq_getElem]
      interval_cases i <;> decide
    simp [eventDescriptor, eventField, h1, h2, hi]
  · have h2 : i = 15 := by omega
    subst h2
    simpa [evField, eventDescriptor, eventField] using h.symm

/-- Of the non-bus events only the one with 15 zero bits is the reset. -/
theorem eventDescriptor_eq_reset {rest : BitVec 15} : eventDescriptor rest = 0x8000#16 ↔ rest = 0#15 := by
  constructor
  · intro h
    have h1 := congrArg eventField h
    rw [eventField_eventDescriptor] at h1
    rw [h1]
    decide
  · rintro rfl
    decide

/-! ## Decode by kind of transaction (R68) -/

/-- A transaction with EV = 1 is the reset or a reserved one. -/
theorem decode_event {t : Txn} (h : evField t.descriptor = true) (p : NarrowAccess) :
    decode p t = if t.descriptor = 0x8000#16 then .reset else .reserved (eventField t.descriptor)  := by
  simp [decode, h]

/-- A bus transaction of an admitted width is decoded by its offset. -/
theorem decode_bus {t : Txn} {p : NarrowAccess} (h : evField t.descriptor = false)
    (hw : t.width.isNarrow = true → p = .literal) :
    decode p t = decodeRegister (offsetField t.descriptor) t.width t.access := by
  unfold decode
  simp only [h, Bool.false_eq_true, if_false]
  rw [if_neg]
  · rfl
  · intro hc
    rw [Bool.and_eq_true] at hc
    have := hw hc.1
    subst this
    simp at hc

/-- A bus transaction of a refused width is not decoded by its offset. -/
theorem decode_narrow {t : Txn} (h : evField t.descriptor = false) (hw : t.width.isNarrow = true) :
    decode .refuse t = .narrowRefuse t.width (offsetField t.descriptor) t.access := by
  unfold decode
  simp only [h, Bool.false_eq_true, if_false]
  rw [if_pos]
  · rfl
  · simpa [Txn.width] using hw

/-! ## Encoded bus transactions -/

/-- The fields of an encoded Read. -/
@[simp] theorem encodeRead_fields (w : Width) (off : Offset) :
    evField (encodeRead w off).descriptor = false ∧ (encodeRead w off).width = w ∧
    offsetField (encodeRead w off).descriptor = off ∧ (encodeRead w off).access = .read := by
  simp [encodeRead, Txn.width, Txn.access]

/-- The fields of an encoded Write. -/
@[simp] theorem encodeWrite_fields (w : Width) (off : Offset) (value : DWord) :
    evField (encodeWrite w off value).descriptor = false ∧ (encodeWrite w off value).width = w ∧
    offsetField (encodeWrite w off value).descriptor = off ∧ (encodeWrite w off value).access = .write value := by
  simp [encodeWrite, Txn.width, Txn.access]

theorem admitted_iff {p : NarrowAccess} {w : Width} : admitted p w = true ↔ (w.isNarrow = true → p = .literal) := by
  unfold admitted
  cases w.isNarrow <;> simp

/-- An encoded Read of an admitted width decodes by its offset. -/
theorem decode_encodeRead {p : NarrowAccess} {w : Width} (h : admitted p w = true) (off : Offset) :
    decode p (encodeRead w off) = decodeRead off w := by
  obtain ⟨h1, h2, h3, h4⟩ := encodeRead_fields w off
  rw [decode_bus h1 (by rw [h2]; exact admitted_iff.mp h), h2, h3, h4]
  rfl

/-- An encoded Write of an admitted width decodes by its offset. -/
theorem decode_encodeWrite {p : NarrowAccess} {w : Width} (h : admitted p w = true) (off : Offset) (value : DWord) :
    decode p (encodeWrite w off value) = decodeWrite off w value := by
  obtain ⟨h1, h2, h3, h4⟩ := encodeWrite_fields w off value
  rw [decode_bus h1 (by rw [h2]; exact admitted_iff.mp h), h2, h3, h4]
  rfl

/-- A Read's descriptor written out as a word decodes by its offset, whatever is on the data lane. -/
theorem decode_readWord {p : NarrowAccess} {d : BitVec 16} {w : Width} {off : Offset} (x : DWord)
    (hd : d = busDescriptor w false off) (h : admitted p w = true) : decode p ⟨d, x⟩ = decodeRead off w := by
  subst hd
  rw [decode_bus (by simp) (by simpa [Txn.width] using admitted_iff.mp h)]
  simp [Txn.width, Txn.access, decodeRegister]

/-- A Write's descriptor written out as a word decodes by its offset. -/
theorem decode_writeWord {p : NarrowAccess} {d : BitVec 16} {w : Width} {off : Offset} (x : DWord)
    (hd : d = busDescriptor w true off) (h : admitted p w = true) : decode p ⟨d, x⟩ = decodeWrite off w x :=
  hd ▸ decode_encodeWrite h off x

/-- A narrow access written out as a word is refused under `refuse`, whatever its offset. -/
theorem decode_narrowWord {d : BitVec 16} {w : Width} {dir : Bool} {off : Offset} (x : DWord)
    (hd : d = busDescriptor w dir off) (h : w.isNarrow = true) :
    decode .refuse ⟨d, x⟩ = .narrowRefuse w off (if dir then .write x else .read) := by
  subst hd
  rw [decode_narrow (by simp) (by simpa [Txn.width] using h)]
  simp [Txn.width, Txn.access]

/-- A non-bus event written out as a word. -/
theorem decode_eventWord {d : BitVec 16} {rest : BitVec 15} (p : NarrowAccess) (x : DWord)
    (hd : d = eventDescriptor rest) (h : rest ≠ 0#15) : decode p ⟨d, x⟩ = .reserved rest := by
  subst hd
  rw [decode_event (by simp), if_neg (by simpa [eventDescriptor_eq_reset] using h)]
  simp

/-- The reset's word. -/
theorem decode_resetWord (p : NarrowAccess) (x : DWord) : decode p ⟨0x8000#16, x⟩ = .reset := by
  rw [decode_event (t := ⟨0x8000#16, x⟩) (show evField 0x8000#16 = true by decide), if_pos rfl]

/-! The register each defined offset reaches (R60). -/

@[simp] theorem decodeRead_offStart (w : Width) : decodeRead Config.offStart w = .rdStart w := by
  rw [decodeRead]; rfl

@[simp] theorem decodeWrite_offStart (w : Width) (v : DWord) :
    decodeWrite Config.offStart w v = .wrStart w v := by
  rw [decodeWrite]; rfl

@[simp] theorem decodeRead_offControls (w : Width) : decodeRead Config.offControls w = .rdControls w := by
  rw [decodeRead]; rfl

@[simp] theorem decodeWrite_offControls (w : Width) (v : DWord) :
    decodeWrite Config.offControls w v = .wrControls w v := by
  rw [decodeWrite]; rfl

@[simp] theorem decodeRead_offSrcAddr (w : Width) : decodeRead Config.offSrcAddr w = .rdSrcAddr w := by
  rw [decodeRead]; rfl

@[simp] theorem decodeWrite_offSrcAddr (w : Width) (v : DWord) :
    decodeWrite Config.offSrcAddr w v = .wrSrcAddr w v := by
  rw [decodeWrite]; rfl

@[simp] theorem decodeRead_offLen (w : Width) : decodeRead Config.offLen w = .rdLen w := by
  rw [decodeRead]; rfl

@[simp] theorem decodeWrite_offLen (w : Width) (v : DWord) :
    decodeWrite Config.offLen w v = .wrLen w v := by
  rw [decodeWrite]; rfl

@[simp] theorem decodeRead_offDstAddr (w : Width) : decodeRead Config.offDstAddr w = decodeDstRead w := by
  rw [decodeRead]; rfl

@[simp] theorem decodeWrite_offDstAddr (w : Width) (v : DWord) :
    decodeWrite Config.offDstAddr w v = decodeDstWrite w v := by
  rw [decodeWrite]; rfl

@[simp] theorem decodeRead_offDstAddrHi (w : Width) : decodeRead Config.offDstAddrHi w = .rdDstAddrHi w := by
  rw [decodeRead]; rfl

@[simp] theorem decodeWrite_offDstAddrHi (w : Width) (v : DWord) :
    decodeWrite Config.offDstAddrHi w v = .wrDstAddrHi w v := by
  rw [decodeWrite]; rfl

@[simp] theorem decodeRead_offSettings (w : Width) : decodeRead Config.offSettings w = .rdSettings w := by
  rw [decodeRead]; rfl

@[simp] theorem decodeWrite_offSettings (w : Width) (v : DWord) :
    decodeWrite Config.offSettings w v = .wrSettings w v := by
  rw [decodeWrite]; rfl

@[simp] theorem decodeRead_offIrqEn (w : Width) : decodeRead Config.offIrqEn w = .rdIrqEn w := by
  rw [decodeRead]; rfl

@[simp] theorem decodeWrite_offIrqEn (w : Width) (v : DWord) :
    decodeWrite Config.offIrqEn w v = .wrIrqEn w v := by
  rw [decodeWrite]; rfl

@[simp] theorem decodeRead_offIrqSta (w : Width) : decodeRead Config.offIrqSta w = .rdIrqSta w := by
  rw [decodeRead]; rfl

@[simp] theorem decodeWrite_offIrqSta (w : Width) (v : DWord) :
    decodeWrite Config.offIrqSta w v = .wrIrqSta w v := by
  rw [decodeWrite]; rfl

/-- Widths 4 and 8 are admitted under both values of NARROW_ACCESS (R36). -/
@[simp] theorem admitted_w4 (p : NarrowAccess) : admitted p .w4 = true := rfl
@[simp] theorem admitted_w8 (p : NarrowAccess) : admitted p .w8 = true := rfl

/-- Every width is admitted under `literal` (R36). -/
@[simp] theorem admitted_literal (w : Width) : admitted .literal w = true := by cases w <;> rfl

/-- An undefined offset differs from each of the nine defined ones (R63). -/
theorem undefinedOffset_iff {off : Offset} : undefinedOffset off = true ↔
    off ≠ Config.offStart ∧ off ≠ Config.offControls ∧ off ≠ Config.offSrcAddr ∧ off ≠ Config.offLen ∧
    off ≠ Config.offDstAddr ∧ off ≠ Config.offDstAddrHi ∧ off ≠ Config.offSettings ∧ off ≠ Config.offIrqEn ∧
    off ≠ Config.offIrqSta := by
  simp [undefinedOffset, Config.definedOffsets]

/-- A Read at an undefined offset decodes to RD.UNDEFINED (R63, R82). -/
theorem decodeRead_undefined {off : Offset} (h : undefinedOffset off = true) (w : Width) :
    decodeRead off w = .rdUndefined off w  := by
  simp [decodeRead, undefinedOffset_iff.mp h]

/-- A Write at an undefined offset decodes to WR.UNDEFINED (R63, R95). -/
theorem decodeWrite_undefined {off : Offset} (h : undefinedOffset off = true) (w : Width) (value : DWord) :
    decodeWrite off w value = .wrUndefined off w value  := by
  simp [decodeWrite, undefinedOffset_iff.mp h]

end Sys2Proof
end

