-- ==== Sys2Proof/Laws/Memory.lean ====
section
/-! SUPPORT. The laws of memory: a read after a write, what a write leaves alone, and that every memory operation keeps
the canonical form. -/

namespace Sys2Proof.Machine

theorem byteAt_put_same (m : Memory) (a : Nat) (b : Byte) : (m.put a b).byteAt? a = some b := by
  induction m with
  | nil => simp [Memory.put, Memory.byteAt?]
  | cons c m ih =>
    obtain ⟨k, d⟩ := c
    simp only [Memory.put]
    split
    · simp [Memory.byteAt?]
    · split
      · simp [Memory.byteAt?]
      · rw [Memory.byteAt?, if_neg (by omega), ih]

theorem byteAt_put_other (m : Memory) {a x : Nat} (b : Byte) (h : x ≠ a) :
    (m.put a b).byteAt? x = m.byteAt? x := by
  induction m with
  | nil => simp [Memory.put, Memory.byteAt?, h.symm]
  | cons c m ih =>
    obtain ⟨k, d⟩ := c
    simp only [Memory.put]
    split
    · rw [Memory.byteAt?, if_neg h.symm]
    · split
      · subst_vars
        simp [Memory.byteAt?, h.symm]
      · simp only [Memory.byteAt?, ih]

/-- The addresses a memory lists after a store: the stored one and those listed before. -/
theorem mem_put {m : Memory} {a : Nat} {b : Byte} {c : Host.Cell} (h : c ∈ m.put a b) : c = (a, b) ∨ c ∈ m := by
  induction m with
  | nil => simpa [Memory.put] using h
  | cons d m ih =>
    obtain ⟨k, e⟩ := d
    simp only [Memory.put] at h
    split at h
    · simpa using h
    · split at h
      · simp only [List.mem_cons] at h ⊢
        tauto
      · simp only [List.mem_cons] at h ⊢
        rcases h with h | h
        · exact .inr (.inl h)
        · rcases ih h with h | h
          · exact .inl h
          · exact .inr (.inr h)

/-- A store keeps the canonical form. -/
theorem put_wf {m : Memory} {a : Nat} {b : Byte} (hm : Memory.wf m) (ha : a < Config.addressSpace) :
    Memory.wf (m.put a b) := by
  refine ⟨?_, fun c hc => ?_⟩
  · have hp := hm.1
    clear hm
    induction m with
    | nil => simp [Memory.put]
    | cons d m ih =>
      obtain ⟨k, e⟩ := d
      obtain ⟨h1, h2⟩ := List.pairwise_cons.mp hp
      simp only [Memory.put]
      split
      · rename_i hlt
        refine List.pairwise_cons.mpr ⟨fun c hc => ?_, hp⟩
        rcases List.mem_cons.mp hc with rfl | hc
        · exact hlt
        · exact lt_trans hlt (h1 c hc)
      · split
        · subst_vars
          exact List.pairwise_cons.mpr ⟨h1, h2⟩
        · refine List.pairwise_cons.mpr ⟨fun c hc => ?_, ih h2⟩
          rcases mem_put hc with rfl | hc
          · show k < a
            omega
          · exact h1 c hc
  · rcases mem_put hc with rfl | hc
    · exact ha
    · exact hm.2 c hc

/-- A stored byte is read back. -/
@[simp] theorem readByte_writeByte_same (m : Memory) (a : Addr) (b : Byte) :
    (m.writeByte a b).readByte a = b := by
  simp [Memory.writeByte, Memory.readByte, byteAt_put_same]

/-- A store of one byte leaves every other byte alone. -/
theorem readByte_writeByte_other (m : Memory) {a x : Addr} (b : Byte) (h : x ≠ a) :
    (m.writeByte a b).readByte x = m.readByte x := by
  rw [Memory.readByte, Memory.readByte, Memory.writeByte, byteAt_put_other]
  exact fun he => h (BitVec.eq_of_toNat_eq he)

theorem writeByte_wf {m : Memory} (hm : Memory.wf m) (a : Addr) (b : Byte) : Memory.wf (m.writeByte a b) :=
  put_wf hm a.isLt

theorem writeBytes_wf (bs : List Byte) : ∀ {m : Memory}, Memory.wf m → ∀ a : Addr, Memory.wf (m.writeBytes a bs) := by
  induction bs with
  | nil => exact fun hm _ => hm
  | cons b bs ih => exact fun hm a => ih (writeByte_wf hm a b) (a + 1#64)

@[simp] theorem readBytes_length (m : Memory) (n : Nat) : ∀ a : Addr, (m.readBytes a n).length = n := by
  induction n with
  | zero => exact fun _ => rfl
  | succ n ih => exact fun a => by simp [Memory.readBytes, ih]

/-- Byte i of a MemRead is the byte at a + i. -/
theorem readBytes_get (m : Memory) (n : Nat) :
    ∀ (a : Addr) (i : Nat), i < n → (m.readBytes a n)[i]? = some (m.readByte (a + BitVec.ofNat 64 i)) := by
  induction n with
  | zero => exact fun _ i h => absurd h (by omega)
  | succ n ih =>
    intro a i h
    cases i with
    | zero => simp [Memory.readBytes]
    | succ i =>
      rw [Memory.readBytes, List.getElem?_cons_succ, ih _ _ (by omega)]
      congr 2
      apply BitVec.eq_of_toNat_eq
      simp only [BitVec.toNat_add, BitVec.toNat_ofNat]
      omega

/-- The address at distance j from a (in the wrapping space) is reached by stepping j times. -/
theorem sub_succ_toNat {x a : Addr} (h : x ≠ a) : (x - (a + 1#64)).toNat + 1 = (x - a).toNat := by
  have hx : x.toNat ≠ a.toNat := fun he => h (BitVec.eq_of_toNat_eq he)
  have h1 := x.isLt
  have h2 := a.isLt
  simp only [BitVec.toNat_sub, BitVec.toNat_add, BitVec.toNat_ofNat]
  omega

/-- What a byte is after a MemWrite of at most 2^64 bytes: the written byte at its distance from the start, or the byte
from before. -/
theorem readByte_writeBytes (bs : List Byte) : ∀ (m : Memory) (a x : Addr), bs.length ≤ 2 ^ 64 →
    (m.writeBytes a bs).readByte x = (bs[(x - a).toNat]?).getD (m.readByte x) := by
  induction bs with
  | nil => simp [Memory.writeBytes]
  | cons b bs ih =>
    intro m a x hlen
    rw [List.length_cons] at hlen
    rw [Memory.writeBytes, ih _ _ _ (by omega)]
    by_cases h : x = a
    · subst h
      have hnone : bs[(x - (x + 1#64)).toNat]? = none := by
        apply List.getElem?_eq_none
        have h1 := x.isLt
        simp only [BitVec.toNat_sub, BitVec.toNat_add, BitVec.toNat_ofNat]
        omega
      rw [hnone]
      simp
    · rw [readByte_writeByte_other _ _ h, ← sub_succ_toNat h, List.getElem?_cons_succ]

/-- A MemWrite leaves every byte outside its range alone. -/
theorem readByte_writeBytes_outside (bs : List Byte) (m : Memory) {a x : Addr} (hlen : bs.length ≤ 2 ^ 64)
    (h : bs.length ≤ (x - a).toNat) : (m.writeBytes a bs).readByte x = m.readByte x := by
  rw [readByte_writeBytes bs m a x hlen, List.getElem?_eq_none h, Option.getD_none]

end Sys2Proof.Machine
end

