-- ==== Sys2Proof/Laws/State.lean ====
section
/-! SUPPORT. One lemma per field per update of the state, true by rfl, so that no later proof unfolds a record update. -/

namespace Sys2Proof.Machine

/-! ### State.setBank -/

@[simp] theorem setBank_bank (s : State) (b : Bank) : (s.setBank b).dev.bank = b := rfl
@[simp] theorem setBank_irqOut (s : State) (b : Bank) : (s.setBank b).dev.irqOut = s.dev.irqOut := rfl
@[simp] theorem setBank_halted (s : State) (b : Bank) : (s.setBank b).dev.halted = s.dev.halted := rfl
@[simp] theorem setBank_params (s : State) (b : Bank) : (s.setBank b).params = s.params := rfl
@[simp] theorem setBank_mem (s : State) (b : Bank) : (s.setBank b).mem = s.mem := rfl
@[simp] theorem setBank_inputs (s : State) (b : Bank) : (s.setBank b).inputs = s.inputs := rfl
@[simp] theorem setBank_place (s : State) (b : Bank) : (s.setBank b).place = s.place := rfl
@[simp] theorem setBank_response (s : State) (b : Bank) : (s.setBank b).response = s.response := rfl
@[simp] theorem setBank_log (s : State) (b : Bank) : (s.setBank b).log = s.log := rfl
@[simp] theorem setBank_port (s : State) (b : Bank) : (s.setBank b).port = s.port := rfl

/-! ### State.setLevel -/

@[simp] theorem setLevel_bank (s : State) (b : Bool) : (s.setLevel b).dev.bank = s.dev.bank := rfl
@[simp] theorem setLevel_irqOut (s : State) (b : Bool) : (s.setLevel b).dev.irqOut = b := rfl
@[simp] theorem setLevel_halted (s : State) (b : Bool) : (s.setLevel b).dev.halted = s.dev.halted := rfl
@[simp] theorem setLevel_params (s : State) (b : Bool) : (s.setLevel b).params = s.params := rfl
@[simp] theorem setLevel_mem (s : State) (b : Bool) : (s.setLevel b).mem = s.mem := rfl
@[simp] theorem setLevel_inputs (s : State) (b : Bool) : (s.setLevel b).inputs = s.inputs := rfl
@[simp] theorem setLevel_place (s : State) (b : Bool) : (s.setLevel b).place = s.place := rfl
@[simp] theorem setLevel_response (s : State) (b : Bool) : (s.setLevel b).response = s.response := rfl
@[simp] theorem setLevel_log (s : State) (b : Bool) : (s.setLevel b).log = s.log := rfl
@[simp] theorem setLevel_port (s : State) (b : Bool) : (s.setLevel b).port = s.port := rfl

/-! ### State.halt -/

@[simp] theorem halt_bank (s : State) (r : HaltReason) : (s.halt r).dev.bank = s.dev.bank := rfl
@[simp] theorem halt_irqOut (s : State) (r : HaltReason) : (s.halt r).dev.irqOut = s.dev.irqOut := rfl
@[simp] theorem halt_halted (s : State) (r : HaltReason) : (s.halt r).dev.halted = some r := rfl
@[simp] theorem halt_params (s : State) (r : HaltReason) : (s.halt r).params = s.params := rfl
@[simp] theorem halt_mem (s : State) (r : HaltReason) : (s.halt r).mem = s.mem := rfl
@[simp] theorem halt_inputs (s : State) (r : HaltReason) : (s.halt r).inputs = s.inputs := rfl
@[simp] theorem halt_place (s : State) (r : HaltReason) : (s.halt r).place = s.place := rfl
@[simp] theorem halt_response (s : State) (r : HaltReason) : (s.halt r).response = s.response := rfl
@[simp] theorem halt_log (s : State) (r : HaltReason) : (s.halt r).log = s.log := rfl
@[simp] theorem halt_port (s : State) (r : HaltReason) : (s.halt r).port = s.port := rfl

/-! ### State.record -/

@[simp] theorem record_bank (s : State) (e : LogEvent) : (s.record e).dev.bank = s.dev.bank := rfl
@[simp] theorem record_irqOut (s : State) (e : LogEvent) : (s.record e).dev.irqOut = s.dev.irqOut := rfl
@[simp] theorem record_halted (s : State) (e : LogEvent) : (s.record e).dev.halted = s.dev.halted := rfl
@[simp] theorem record_params (s : State) (e : LogEvent) : (s.record e).params = s.params := rfl
@[simp] theorem record_mem (s : State) (e : LogEvent) : (s.record e).mem = s.mem := rfl
@[simp] theorem record_inputs (s : State) (e : LogEvent) : (s.record e).inputs = s.inputs := rfl
@[simp] theorem record_place (s : State) (e : LogEvent) : (s.record e).place = s.place := rfl
@[simp] theorem record_response (s : State) (e : LogEvent) : (s.record e).response = s.response := rfl
@[simp] theorem record_log (s : State) (e : LogEvent) : (s.record e).log = s.log ++ [e] := rfl
@[simp] theorem record_port (s : State) (e : LogEvent) : (s.record e).port = s.port := rfl

/-! ### State.respond -/

@[simp] theorem respond_bank (s : State) (v : Option DWord) : (s.respond v).dev.bank = s.dev.bank := rfl
@[simp] theorem respond_irqOut (s : State) (v : Option DWord) : (s.respond v).dev.irqOut = s.dev.irqOut := rfl
@[simp] theorem respond_halted (s : State) (v : Option DWord) : (s.respond v).dev.halted = s.dev.halted := rfl
@[simp] theorem respond_params (s : State) (v : Option DWord) : (s.respond v).params = s.params := rfl
@[simp] theorem respond_mem (s : State) (v : Option DWord) : (s.respond v).mem = s.mem := rfl
@[simp] theorem respond_inputs (s : State) (v : Option DWord) : (s.respond v).inputs = s.inputs := rfl
@[simp] theorem respond_place (s : State) (v : Option DWord) : (s.respond v).place = s.place := rfl
@[simp] theorem respond_response (s : State) (v : Option DWord) : (s.respond v).response = v := rfl
@[simp] theorem respond_log (s : State) (v : Option DWord) : (s.respond v).log = s.log := rfl
@[simp] theorem respond_port (s : State) (v : Option DWord) : (s.respond v).port = s.port := rfl

/-! ### recompute -/

@[simp] theorem recompute_bank (s : State) : (recompute s).dev.bank = s.dev.bank := rfl
@[simp] theorem recompute_irqOut (s : State) : (recompute s).dev.irqOut = lineFn s.dev.bank := rfl
@[simp] theorem recompute_halted (s : State) : (recompute s).dev.halted = s.dev.halted := rfl
@[simp] theorem recompute_params (s : State) : (recompute s).params = s.params := rfl
@[simp] theorem recompute_mem (s : State) : (recompute s).mem = s.mem := rfl
@[simp] theorem recompute_inputs (s : State) : (recompute s).inputs = s.inputs := rfl
@[simp] theorem recompute_place (s : State) : (recompute s).place = s.place := rfl
@[simp] theorem recompute_response (s : State) : (recompute s).response = s.response := rfl
@[simp] theorem recompute_log (s : State) : (recompute s).log = s.log := rfl
@[simp] theorem recompute_port (s : State) : (recompute s).port = s.port := rfl

/-! ### finishStart -/

@[simp] theorem finishStart_bank (s : State) : (finishStart s).dev.bank = s.dev.bank := rfl
@[simp] theorem finishStart_irqOut (s : State) : (finishStart s).dev.irqOut = lineFn s.dev.bank := rfl
@[simp] theorem finishStart_halted (s : State) : (finishStart s).dev.halted = s.dev.halted := rfl
@[simp] theorem finishStart_params (s : State) : (finishStart s).params = s.params := rfl
@[simp] theorem finishStart_mem (s : State) : (finishStart s).mem = s.mem := rfl
@[simp] theorem finishStart_inputs (s : State) : (finishStart s).inputs = s.inputs := rfl
@[simp] theorem finishStart_place (s : State) : (finishStart s).place = s.place := rfl
@[simp] theorem finishStart_response (s : State) : (finishStart s).response = none := rfl
@[simp] theorem finishStart_log (s : State) : (finishStart s).log = s.log := rfl
@[simp] theorem finishStart_port (s : State) : (finishStart s).port = s.port := rfl

/-! ### signalCompletion -/

@[simp] theorem signalCompletion_bank (s : State) : (signalCompletion s).dev.bank = { s.dev.bank with irqSta := completeStatus s.dev.bank.irqSta } := rfl
@[simp] theorem signalCompletion_irqOut (s : State) : (signalCompletion s).dev.irqOut = s.dev.irqOut := rfl
@[simp] theorem signalCompletion_halted (s : State) : (signalCompletion s).dev.halted = s.dev.halted := rfl
@[simp] theorem signalCompletion_params (s : State) : (signalCompletion s).params = s.params := rfl
@[simp] theorem signalCompletion_mem (s : State) : (signalCompletion s).mem = s.mem := rfl
@[simp] theorem signalCompletion_inputs (s : State) : (signalCompletion s).inputs = s.inputs := rfl
@[simp] theorem signalCompletion_place (s : State) : (signalCompletion s).place = s.place := rfl
@[simp] theorem signalCompletion_response (s : State) : (signalCompletion s).response = s.response := rfl
@[simp] theorem signalCompletion_log (s : State) : (signalCompletion s).log = s.log := rfl
@[simp] theorem signalCompletion_port (s : State) : (signalCompletion s).port = s.port := rfl

/-! ### memWrite -/

@[simp] theorem memWrite_bank (s : State) (a : Addr) (bs : List Byte) : (memWrite a bs s).dev.bank = s.dev.bank := rfl
@[simp] theorem memWrite_irqOut (s : State) (a : Addr) (bs : List Byte) : (memWrite a bs s).dev.irqOut = s.dev.irqOut := rfl
@[simp] theorem memWrite_halted (s : State) (a : Addr) (bs : List Byte) : (memWrite a bs s).dev.halted = s.dev.halted := rfl
@[simp] theorem memWrite_params (s : State) (a : Addr) (bs : List Byte) : (memWrite a bs s).params = s.params := rfl
@[simp] theorem memWrite_mem (s : State) (a : Addr) (bs : List Byte) : (memWrite a bs s).mem = s.mem.writeBytes a bs := rfl
@[simp] theorem memWrite_inputs (s : State) (a : Addr) (bs : List Byte) : (memWrite a bs s).inputs = s.inputs := rfl
@[simp] theorem memWrite_place (s : State) (a : Addr) (bs : List Byte) : (memWrite a bs s).place = s.place := rfl
@[simp] theorem memWrite_response (s : State) (a : Addr) (bs : List Byte) : (memWrite a bs s).response = s.response := rfl
@[simp] theorem memWrite_log (s : State) (a : Addr) (bs : List Byte) : (memWrite a bs s).log = s.log := rfl
@[simp] theorem memWrite_port (s : State) (a : Addr) (bs : List Byte) : (memWrite a bs s).port = s.port ++ [.memWrite a bs] := rfl

/-! ### memRead -/

@[simp] theorem memRead_bank (s : State) (a : Addr) (n : Nat) : ((memRead a n s).2).dev.bank = s.dev.bank := rfl
@[simp] theorem memRead_irqOut (s : State) (a : Addr) (n : Nat) : ((memRead a n s).2).dev.irqOut = s.dev.irqOut := rfl
@[simp] theorem memRead_halted (s : State) (a : Addr) (n : Nat) : ((memRead a n s).2).dev.halted = s.dev.halted := rfl
@[simp] theorem memRead_params (s : State) (a : Addr) (n : Nat) : ((memRead a n s).2).params = s.params := rfl
@[simp] theorem memRead_mem (s : State) (a : Addr) (n : Nat) : ((memRead a n s).2).mem = s.mem := rfl
@[simp] theorem memRead_inputs (s : State) (a : Addr) (n : Nat) : ((memRead a n s).2).inputs = s.inputs := rfl
@[simp] theorem memRead_place (s : State) (a : Addr) (n : Nat) : ((memRead a n s).2).place = s.place := rfl
@[simp] theorem memRead_response (s : State) (a : Addr) (n : Nat) : ((memRead a n s).2).response = s.response := rfl
@[simp] theorem memRead_log (s : State) (a : Addr) (n : Nat) : ((memRead a n s).2).log = s.log := rfl
@[simp] theorem memRead_port (s : State) (a : Addr) (n : Nat) : ((memRead a n s).2).port = s.port ++ [.memRead a (s.mem.readBytes a n)] := rfl

@[simp] theorem memRead_bytes (s : State) (a : Addr) (n : Nat) : (memRead a n s).1 = s.mem.readBytes a n := rfl

/-! ### copyChunk -/

@[simp] theorem copyChunk_bank (s : State) (src dst : Addr) (k : Nat) : (copyChunk src dst k s).dev.bank = s.dev.bank := rfl
@[simp] theorem copyChunk_irqOut (s : State) (src dst : Addr) (k : Nat) : (copyChunk src dst k s).dev.irqOut = s.dev.irqOut := rfl
@[simp] theorem copyChunk_halted (s : State) (src dst : Addr) (k : Nat) : (copyChunk src dst k s).dev.halted = s.dev.halted := rfl
@[simp] theorem copyChunk_params (s : State) (src dst : Addr) (k : Nat) : (copyChunk src dst k s).params = s.params := rfl
@[simp] theorem copyChunk_mem (s : State) (src dst : Addr) (k : Nat) : (copyChunk src dst k s).mem = s.mem.writeBytes dst (s.mem.readBytes src k) := rfl
@[simp] theorem copyChunk_inputs (s : State) (src dst : Addr) (k : Nat) : (copyChunk src dst k s).inputs = s.inputs := rfl
@[simp] theorem copyChunk_place (s : State) (src dst : Addr) (k : Nat) : (copyChunk src dst k s).place = s.place := rfl
@[simp] theorem copyChunk_response (s : State) (src dst : Addr) (k : Nat) : (copyChunk src dst k s).response = s.response := rfl
@[simp] theorem copyChunk_log (s : State) (src dst : Addr) (k : Nat) : (copyChunk src dst k s).log = s.log := rfl
@[simp] theorem copyChunk_port (s : State) (src dst : Addr) (k : Nat) : (copyChunk src dst k s).port =
    s.port ++ [.memRead src (s.mem.readBytes src k), .memWrite dst (s.mem.readBytes src k)] := by
  simp [copyChunk]

/-! ### takeTransaction -/

@[simp] theorem takeTransaction_bank (s : State) (rest : List Input) : (takeTransaction rest s).dev.bank = s.dev.bank := rfl
@[simp] theorem takeTransaction_irqOut (s : State) (rest : List Input) : (takeTransaction rest s).dev.irqOut = s.dev.irqOut := rfl
@[simp] theorem takeTransaction_halted (s : State) (rest : List Input) : (takeTransaction rest s).dev.halted = s.dev.halted := rfl
@[simp] theorem takeTransaction_params (s : State) (rest : List Input) : (takeTransaction rest s).params = s.params := rfl
@[simp] theorem takeTransaction_mem (s : State) (rest : List Input) : (takeTransaction rest s).mem = s.mem := rfl
@[simp] theorem takeTransaction_inputs (s : State) (rest : List Input) : (takeTransaction rest s).inputs = rest := rfl
@[simp] theorem takeTransaction_place (s : State) (rest : List Input) : (takeTransaction rest s).place = s.place + 1 := rfl
@[simp] theorem takeTransaction_response (s : State) (rest : List Input) : (takeTransaction rest s).response = s.response := rfl
@[simp] theorem takeTransaction_log (s : State) (rest : List Input) : (takeTransaction rest s).log = s.log := rfl
@[simp] theorem takeTransaction_port (s : State) (rest : List Input) : (takeTransaction rest s).port = s.port := rfl

/-! ### agentStores -/

@[simp] theorem agentStores_bank (s : State) (a : Addr) (b : Byte) (rest : List Input) : (agentStores a b rest s).dev.bank = s.dev.bank := rfl
@[simp] theorem agentStores_irqOut (s : State) (a : Addr) (b : Byte) (rest : List Input) : (agentStores a b rest s).dev.irqOut = s.dev.irqOut := rfl
@[simp] theorem agentStores_halted (s : State) (a : Addr) (b : Byte) (rest : List Input) : (agentStores a b rest s).dev.halted = s.dev.halted := rfl
@[simp] theorem agentStores_params (s : State) (a : Addr) (b : Byte) (rest : List Input) : (agentStores a b rest s).params = s.params := rfl
@[simp] theorem agentStores_mem (s : State) (a : Addr) (b : Byte) (rest : List Input) : (agentStores a b rest s).mem = s.mem.writeByte a b := rfl
@[simp] theorem agentStores_inputs (s : State) (a : Addr) (b : Byte) (rest : List Input) : (agentStores a b rest s).inputs = rest := rfl
@[simp] theorem agentStores_place (s : State) (a : Addr) (b : Byte) (rest : List Input) : (agentStores a b rest s).place = s.place := rfl
@[simp] theorem agentStores_response (s : State) (a : Addr) (b : Byte) (rest : List Input) : (agentStores a b rest s).response = s.response := rfl
@[simp] theorem agentStores_log (s : State) (a : Addr) (b : Byte) (rest : List Input) : (agentStores a b rest s).log = s.log := rfl
@[simp] theorem agentStores_port (s : State) (a : Addr) (b : Byte) (rest : List Input) : (agentStores a b rest s).port = s.port := rfl

/-! ### presentNext -/

@[simp] theorem presentNext_bank (s : State) (t : Txn) : (presentNext t s).dev.bank = s.dev.bank := rfl
@[simp] theorem presentNext_irqOut (s : State) (t : Txn) : (presentNext t s).dev.irqOut = s.dev.irqOut := rfl
@[simp] theorem presentNext_halted (s : State) (t : Txn) : (presentNext t s).dev.halted = s.dev.halted := rfl
@[simp] theorem presentNext_params (s : State) (t : Txn) : (presentNext t s).params = s.params := rfl
@[simp] theorem presentNext_mem (s : State) (t : Txn) : (presentNext t s).mem = s.mem := rfl
@[simp] theorem presentNext_inputs (s : State) (t : Txn) : (presentNext t s).inputs = .bus t :: s.inputs := rfl
@[simp] theorem presentNext_place (s : State) (t : Txn) : (presentNext t s).place = s.place := rfl
@[simp] theorem presentNext_response (s : State) (t : Txn) : (presentNext t s).response = s.response := rfl
@[simp] theorem presentNext_log (s : State) (t : Txn) : (presentNext t s).log = s.log := rfl
@[simp] theorem presentNext_port (s : State) (t : Txn) : (presentNext t s).port = s.port := rfl

end Sys2Proof.Machine
end

