-- ==== Sys2Proof/Laws/Engine.lean ====
section
/-! SUPPORT. What the transfer engine's operations can do, said once: the copy loop, the transfer and Run. -/

namespace Sys2Proof.Machine

/-! ## Sequencing -/

@[simp] theorem andThen_next (s : State) (f : State → Host.Outcome State Fault Refusal) :
    andThen (.next s) f = f s := rfl

@[simp] theorem andThen_refused (r : Refusal) (f : State → Host.Outcome State Fault Refusal) :
    andThen (.refused r) f = .refused r := rfl

@[simp] theorem andThen_fault (r : Fault) (f : State → Host.Outcome State Fault Refusal) :
    andThen (.fault r) f = .fault r := rfl

/-- Two operations in sequence answer a next state only through one of the first. -/
theorem andThen_next_iff {o : Host.Outcome State Fault Refusal} {f : State → Host.Outcome State Fault Refusal}
    {t : State} : andThen o f = .next t ↔ ∃ u, o = .next u ∧ f u = .next t := by
  cases o <;> simp [andThen]

/-! ## The chunk sequence -/

theorem chunkSizes_last {n s : Nat} (hn : 1 ≤ n) (h : n ≤ s) : chunkSizes n s = [n] := by
  have hc : chunkCount n s = 1 := by
    unfold chunkCount
    rw [Nat.div_eq_of_lt_le] <;> omega
  simp [chunkSizes, hc]

theorem chunkCount_succ {n s : Nat} (hs : 1 ≤ s) (h : s < n) : chunkCount n s = chunkCount (n - s) s + 1 := by
  unfold chunkCount
  rw [show n + s - 1 = (n - s + s - 1) + s by omega, Nat.add_div_right _ hs]

theorem chunkCount_pos {n s : Nat} (hn : 1 ≤ n) (hs : 1 ≤ s) : 1 ≤ chunkCount n s :=
  (Nat.one_le_div_iff hs).mpr (by omega)

theorem chunkSizes_step {n s : Nat} (hs : 1 ≤ s) (h : s < n) : chunkSizes n s = s :: chunkSizes (n - s) s := by
  have h1 := chunkCount_succ hs h
  have h2 : 1 ≤ chunkCount (n - s) s := chunkCount_pos (by omega) hs
  obtain ⟨m, hm⟩ : ∃ m, chunkCount (n - s) s = m + 1 := ⟨_, (Nat.sub_add_cancel h2).symm⟩
  unfold chunkSizes
  rw [h1, hm, Nat.add_sub_cancel, Nat.add_sub_cancel, List.replicate_succ, List.cons_append, Nat.succ_mul,
    Nat.add_comm (m * s) s, Nat.sub_sub]

/-- No chunk is longer than the first: min(s, n) (R100). -/
theorem chunkSizes_le (s : Nat) (hs : 1 ≤ s) : ∀ (n : Nat), 1 ≤ n → ∀ k ∈ chunkSizes n s, k ≤ min s n := by
  intro n
  induction n using Nat.strong_induction_on with
  | _ n ih =>
    intro hn k hk
    by_cases h : n ≤ s
    · rw [chunkSizes_last hn h, List.mem_singleton] at hk
      omega
    · rw [chunkSizes_step hs (by omega), List.mem_cons] at hk
      rcases hk with rfl | hk
      · omega
      · have := ih (n - s) (by omega) (by omega) k hk
        omega

/-! ## The copy loop -/

/-- Chunks of the given sizes, one after the other, from the same source to the same destination. -/
def copyChunks (src dst : Addr) (sizes : List Nat) (s : State) : State :=
  sizes.foldl (fun t k => copyChunk src dst k t) s

@[simp] theorem copyChunks_nil (src dst : Addr) (s : State) : copyChunks src dst [] s = s := rfl

@[simp] theorem copyChunks_cons (src dst : Addr) (k : Nat) (ks : List Nat) (s : State) :
    copyChunks src dst (k :: ks) s = copyChunks src dst ks (copyChunk src dst k s) := rfl

/-- Chunks change memory and the port trace, and nothing else; they keep memory's canonical form. -/
theorem copyChunks_frame (src dst : Addr) (ks : List Nat) : ∀ s : State,
    (copyChunks src dst ks s).dev = s.dev ∧ (copyChunks src dst ks s).params = s.params ∧
    (copyChunks src dst ks s).inputs = s.inputs ∧ (copyChunks src dst ks s).place = s.place ∧
    (copyChunks src dst ks s).response = s.response ∧ (copyChunks src dst ks s).log = s.log ∧
    (Memory.wf s.mem → Memory.wf (copyChunks src dst ks s).mem) := by
  induction ks with
  | nil => simp
  | cons k ks ih =>
    intro s
    obtain ⟨h1, h2, h3, h4, h5, h6, h7⟩ := ih (copyChunk src dst k s)
    exact ⟨h1, h2, h3, h4, h5, h6, fun h => h7 (writeBytes_wf _ h _)⟩

/-- One chunk's effect on every byte (R102). -/
theorem readByte_copyChunk (src dst : Addr) {k : Nat} (hk : k ≤ 2 ^ 64) (s : State) (a : Addr) :
    (copyChunk src dst k s).mem.readByte a = copyOnce src dst k s.mem.readByte a := by
  rw [copyChunk_mem, readByte_writeBytes _ _ _ _ (by simpa using hk), copyOnce]
  split
  · rename_i h
    rw [readBytes_get _ _ _ _ h, Option.getD_some, BitVec.ofNat_toNat, BitVec.setWidth_eq]
  · rename_i h
    rw [List.getElem?_eq_none (by rw [readBytes_length]; omega), Option.getD_none]

theorem crossesTop_eq_false {a : Addr} {k : Nat} : crossesTop a k = false ↔ a.toNat + k ≤ 2 ^ 64 :=
  decide_eq_false_iff_not.trans Nat.not_lt

theorem crossesTop_eq_true {a : Addr} {k : Nat} : crossesTop a k = true ↔ 2 ^ 64 < a.toNat + k :=
  decide_eq_true_iff

/-- The copy loop with a chunk size of at least 1 and ranges that fit runs the chunk sequence of R101 to its end. -/
theorem copyLoop_next {step : Nat} (hs : 1 ≤ step) (src dst : Addr) :
    ∀ (fuel n : Nat) (s : State), 1 ≤ n → n ≤ fuel →
      src.toNat + min step n ≤ 2 ^ 64 → dst.toNat + min step n ≤ 2 ^ 64 →
      copyLoop step src dst fuel n s = .next (copyChunks src dst (chunkSizes n step) s) := by
  intro fuel
  induction fuel with
  | zero => exact fun n _ h1 h2 => absurd h1 (by omega)
  | succ fuel ih =>
    intro n s h1 h2 h3 h4
    rw [copyLoop, if_neg (by omega), if_neg (by simp [crossesTop_eq_false.mpr h3]),
      if_neg (by simp [crossesTop_eq_false.mpr h4])]
    by_cases h : n ≤ step
    · rw [chunkSizes_last h1 h, Nat.min_eq_right h, Nat.sub_self]
      cases fuel <;> simp [copyLoop]
    · rw [chunkSizes_step hs (by omega), Nat.min_eq_left (by omega), copyChunks_cons]
      exact ih _ _ (by omega) (by omega) (by omega) (by omega)

/-- The copy loop whose first chunk passes the top of the address space makes no access (R44). -/
theorem copyLoop_refused {step : Nat} {src dst : Addr} {fuel n : Nat} (s : State) (h1 : 1 ≤ n) (h2 : n ≤ fuel)
    (h : 2 ^ 64 < src.toNat + min step n ∨ 2 ^ 64 < dst.toNat + min step n) :
    copyLoop step src dst fuel n s =
      .refused (.chunkCrossesTop (if 2 ^ 64 < src.toNat + min step n then src else dst) (min step n)) := by
  obtain ⟨fuel, rfl⟩ : ∃ f, fuel = f + 1 := ⟨fuel - 1, by omega⟩
  rw [copyLoop, if_neg (by omega)]
  by_cases hsrc : 2 ^ 64 < src.toNat + min step n
  · rw [if_pos (crossesTop_eq_true.mpr hsrc), if_pos hsrc]
  · have hdst := h.resolve_left hsrc
    rw [if_neg (by rw [crossesTop_eq_true]; exact hsrc), if_pos (crossesTop_eq_true.mpr hdst), if_neg hsrc]

/-! ## The transfer and Run -/

/-- The state a transfer leaves: its chunks, and then completion. -/
def transferred (step : Nat) (s : State) : State :=
  signalCompletion
    (copyChunks (srcAbs s.params s.dev.bank) (dstCur s.dev.bank) (chunkSizes (transferLength s.dev.bank) step) s)

/-- A transfer either runs whole or is refused before its first access. -/
theorem transfer_cases {step : Nat} (hs : 1 ≤ step) (s : State) :
    ((srcAbs s.params s.dev.bank).toNat + min step (transferLength s.dev.bank) ≤ 2 ^ 64 ∧
      (dstCur s.dev.bank).toNat + min step (transferLength s.dev.bank) ≤ 2 ^ 64 ∧
      transfer step s = .next (transferred step s)) ∨
    ((2 ^ 64 < (srcAbs s.params s.dev.bank).toNat + min step (transferLength s.dev.bank) ∨
        2 ^ 64 < (dstCur s.dev.bank).toNat + min step (transferLength s.dev.bank)) ∧
      transfer step s = .refused (.chunkCrossesTop
        (if 2 ^ 64 < (srcAbs s.params s.dev.bank).toNat + min step (transferLength s.dev.bank)
          then srcAbs s.params s.dev.bank else dstCur s.dev.bank)
        (min step (transferLength s.dev.bank)))) := by
  have hn : 1 ≤ transferLength s.dev.bank := by unfold transferLength; omega
  by_cases h : 2 ^ 64 < (srcAbs s.params s.dev.bank).toNat + min step (transferLength s.dev.bank) ∨
      2 ^ 64 < (dstCur s.dev.bank).toNat + min step (transferLength s.dev.bank)
  · exact .inr ⟨h, by rw [transfer, copyLoop_refused s hn le_rfl h, andThen_refused]⟩
  · rw [not_or, Nat.not_lt, Nat.not_lt] at h
    exact .inl ⟨h.1, h.2, by rw [transfer, copyLoop_next hs _ _ _ _ _ hn le_rfl h.1 h.2]; rfl⟩

theorem chunkField_pos {b : Bank} (h : chunkField b ≠ 0#8) : 1 ≤ (chunkField b).toNat := by
  rcases Nat.eq_zero_or_pos (chunkField b).toNat with h0 | h0
  · exact absurd (BitVec.eq_of_toNat_eq (by simpa using h0)) h
  · exact h0

/-- `effectiveStep` is the chunk size Run uses, and at most 255 (R42). -/
theorem effectiveStep_le (p : Params) (b : Bank) : effectiveStep p b ≤ 255 := by
  unfold effectiveStep
  have := (b.controls.extractLsb' 0 8).isLt
  split
  · split <;> omega
  · omega

/-- Run by the chunk size in force: the zero-chunk policy where it is 0, the transfer otherwise (R99). -/
theorem runEngine_eq (s : State) :
    runEngine s =
      if effectiveStep s.params s.dev.bank = 0 then
        (if s.params.zeroChunk = .hang then hang s
          else .next (s.record (.zeroChunkRejected s.dev.bank.start s.dev.bank.controls)))
      else transfer (effectiveStep s.params s.dev.bank) s := by
  unfold runEngine effectiveStep
  by_cases h : chunkField s.dev.bank = 0#8
  · have h' : BitVec.extractLsb' 0 8 s.dev.bank.controls = 0#8 := h
    rw [if_pos h, if_pos h']
    cases s.params.zeroChunk <;> simp
  · have h1 := chunkField_pos h
    have h' : BitVec.extractLsb' 0 8 s.dev.bank.controls ≠ 0#8 := h
    rw [if_neg h, if_neg h', if_neg (by unfold chunkField at h1; omega)]
    rfl

/-- Everything a START write with a trigger can do (R85): it hangs, rejects a zero chunk, is refused before its first
access, or transfers. -/
theorem runEngine_next {s t : State} (h : runEngine s = .next t) :
    (effectiveStep s.params s.dev.bank = 0 ∧ s.params.zeroChunk = .reject ∧
      t = s.record (.zeroChunkRejected s.dev.bank.start s.dev.bank.controls)) ∨
    (TransferRuns s.params s.dev.bank ∧ t = transferred (effectiveStep s.params s.dev.bank) s) := by
  rw [runEngine_eq] at h
  split at h
  · rename_i h0
    split at h
    · simp [hang] at h
    · rename_i h1
      have h2 : s.params.zeroChunk = .reject := by
        revert h0 h1
        unfold effectiveStep
        cases s.params.zeroChunk
        · simp
        · intro h0
          split at h0
          · simp at h0
          · rename_i hc
            have := chunkField_pos (b := s.dev.bank) hc
            unfold chunkField at this
            omega
        · simp
      simp only [Host.Outcome.next.injEq] at h
      exact .inl ⟨h0, h2, h.symm⟩
  · rename_i h0
    have hs : 1 ≤ effectiveStep s.params s.dev.bank := by omega
    rcases transfer_cases hs s with ⟨h1, h2, h3⟩ | ⟨_, h3⟩
    · rw [h3] at h
      simp only [Host.Outcome.next.injEq] at h
      exact .inr ⟨⟨hs, h1, h2⟩, h.symm⟩
    · rw [h3] at h
      cases h

/-- A transfer changes IRQ_STA, memory and the port trace, and nothing else (R104). -/
theorem transferred_frame (step : Nat) (s : State) :
    (transferred step s).dev = { s.dev with bank := { s.dev.bank with irqSta := completeStatus s.dev.bank.irqSta } } ∧
    (transferred step s).params = s.params ∧ (transferred step s).inputs = s.inputs ∧
    (transferred step s).place = s.place ∧ (transferred step s).response = s.response ∧
    (transferred step s).log = s.log ∧ (Memory.wf s.mem → Memory.wf (transferred step s).mem) := by
  obtain ⟨h1, h2, h3, h4, h5, h6, h7⟩ := copyChunks_frame (srcAbs s.params s.dev.bank) (dstCur s.dev.bank)
    (chunkSizes (transferLength s.dev.bank) step) s
  refine ⟨?_, h2, h3, h4, h5, h6, h7⟩
  unfold transferred signalCompletion State.setBank
  rw [h1]

end Sys2Proof.Machine
end

