-- ==== Sys2Proof/Laws/Exec.lean ====
section
/-! SUPPORT. What a meaning and a step can do when they answer a next state, said once: later proofs split these cases
instead of unfolding `exec` and `step`. -/

namespace Sys2Proof.Machine

/-! ## The START write (R85) -/

/-- The state in which Run begins: START stored, nothing else done. -/
def startStored (w : Width) (value : DWord) (s : State) : State :=
  s.setBank { s.dev.bank with start := low32 (busValue w value) }

/-- Bit 0 of the bus value is bit 0 of the data word, at every width. -/
@[simp] theorem busValue_bit0 (w : Width) (value : DWord) : (busValue w value).getLsbD 0 = value.getLsbD 0 := by
  cases w <;> simp [busValue, Width.bytes]

/-- At width 8 the bus value is the data word (R59). -/
@[simp] theorem busValue_w8 (value : DWord) : busValue .w8 value = value := by
  simp [busValue, Width.bytes]

/-- At widths 4 and 8 a 32-bit register takes value[31:0] of the data word (R62). -/
theorem low32_busValue {w : Width} (h : w.isNarrow = false) (value : DWord) :
    low32 (busValue w value) = value.setWidth 32 := by
  cases w
  · cases h
  · cases h
  · simp [low32, busValue, Width.bytes]
  · simp [low32]

@[simp] theorem effectiveStep_startStored (w : Width) (value : DWord) (s : State) :
    effectiveStep (startStored w value s).params (startStored w value s).dev.bank =
      effectiveStep s.params s.dev.bank := rfl

/-- Whether a transfer runs does not depend on START (R85: "It does not read START"). -/
@[simp] theorem transferRuns_startStored (w : Width) (value : DWord) (s : State) :
    TransferRuns (startStored w value s).params (startStored w value s).dev.bank ↔
      TransferRuns s.params s.dev.bank := Iff.rfl

theorem execWrStart_eq (w : Width) (value : DWord) (s : State) :
    execWrStart w value s =
      if value.getLsbD 0 then andThen (runEngine (startStored w value s)) (fun t => .next (finishStart t))
      else .next (finishStart (startStored w value s)) := by
  simp only [execWrStart, busValue_bit0]
  rfl

/-- Everything a START write can do when it answers a next state (R85, R99, R100). -/
theorem execWrStart_next {w : Width} {value : DWord} {s t : State} (h : execWrStart w value s = .next t) :
    (value.getLsbD 0 = false ∧ t = finishStart (startStored w value s)) ∨
    (value.getLsbD 0 = true ∧ effectiveStep s.params s.dev.bank = 0 ∧ s.params.zeroChunk = .reject ∧
      t = finishStart ((startStored w value s).record
        (.zeroChunkRejected (low32 (busValue w value)) s.dev.bank.controls))) ∨
    (value.getLsbD 0 = true ∧ TransferRuns s.params s.dev.bank ∧
      t = finishStart (transferred (effectiveStep s.params s.dev.bank) (startStored w value s))) := by
  rw [execWrStart_eq] at h
  split at h
  · rename_i h0
    obtain ⟨u, hu, ht⟩ := andThen_next_iff.mp h
    simp only [Host.Outcome.next.injEq] at ht
    subst ht
    rcases runEngine_next hu with ⟨h1, h2, rfl⟩ | ⟨h1, rfl⟩
    · exact .inr (.inl ⟨h0, h1, h2, rfl⟩)
    · exact .inr (.inr ⟨h0, h1, rfl⟩)
  · rename_i h0
    simp only [Host.Outcome.next.injEq] at h
    exact .inl ⟨by simpa using h0, h.symm⟩

/-! ## Kinds of instruction -/

/-- The reads of defined registers. -/
def Reads : Instr → Prop
  | .rdStart _ | .rdControls _ | .rdSrcAddr _ | .rdLen _ | .rdDstAddrW4 | .rdDstAddrW8 | .rdDstAddrNarrow _
  | .rdDstAddrHi _ | .rdSettings _ | .rdIrqEn _ | .rdIrqSta _ => True
  | _ => False

/-- The writes that only store: CONTROLS, SRC_ADDR, LEN, DST_ADDR, DST_ADDR_HI, SETTINGS. -/
def Stores : Instr → Prop
  | .wrControls _ _ | .wrSrcAddr _ _ | .wrLen _ _ | .wrDstAddrW4 _ | .wrDstAddrW8 _ | .wrDstAddrNarrow _ _
  | .wrDstAddrHi _ _ | .wrSettings _ _ => True
  | _ => False

/-- Everything an instruction can do when it answers a next state. -/
theorem exec_next {i : Instr} {s t : State} (h : exec i s = .next t) :
    (Reads i ∧ ∃ v, t = s.respond (some v)) ∨
    (∃ off w, i = .rdUndefined off w ∧ t = (s.record (.protocolViolationRead off w)).respond (some 0#64)) ∨
    (∃ off w v, i = .wrUndefined off w v ∧
      t = (s.record (.protocolViolationWrite off w (busValue w v))).respond none) ∨
    (Stores i ∧ ∃ b, t = (s.setBank b).respond none ∧
      b.irqEn = s.dev.bank.irqEn ∧ b.irqSta = s.dev.bank.irqSta ∧ b.start = s.dev.bank.start) ∨
    (∃ w v, i = .wrIrqEn w v ∧
      t = (recompute (s.setBank { s.dev.bank with irqEn := low32 (busValue w v) })).respond none) ∨
    (∃ w v, i = .wrIrqSta w v ∧
      t = (recompute (s.setBank { s.dev.bank with irqSta := ackStatus s.dev.bank.irqSta (busValue w v) })).respond none) ∨
    (i = .reset ∧ t = ((s.setBank Bank.reset).setLevel false).respond none) ∨
    (∃ w v, i = .wrStart w v ∧ execWrStart w v s = .next t) := by
  cases i with
  | reserved rest => simp [exec, execReserved] at h
  | narrowRefuse w off acc => simp [exec, execNarrowRefuse] at h
  | wrStart w v => exact .inr (.inr (.inr (.inr (.inr (.inr (.inr ⟨w, v, rfl, h⟩))))))
  | reset =>
    refine .inr (.inr (.inr (.inr (.inr (.inr (.inl ⟨rfl, ?_⟩))))))
    exact (Host.Outcome.next.inj h).symm
  | wrIrqSta w v => exact .inr (.inr (.inr (.inr (.inr (.inl ⟨w, v, rfl, (Host.Outcome.next.inj h).symm⟩)))))
  | wrIrqEn w v => exact .inr (.inr (.inr (.inr (.inl ⟨w, v, rfl, (Host.Outcome.next.inj h).symm⟩))))
  | rdUndefined off w => exact .inr (.inl ⟨off, w, rfl, (Host.Outcome.next.inj h).symm⟩)
  | wrUndefined off w v => exact .inr (.inr (.inl ⟨off, w, v, rfl, (Host.Outcome.next.inj h).symm⟩))
  | _ =>
    first
    | exact .inl ⟨trivial, _, (Host.Outcome.next.inj h).symm⟩
    | exact .inr (.inr (.inr (.inl ⟨trivial, _, (Host.Outcome.next.inj h).symm, rfl, rfl, rfl⟩)))

/-! ## The step -/

/-- Everything a step can do when it answers a next state. -/
theorem step_next {s t : State} (h : step s = .next t) :
    s.dev.halted = none ∧
    ((s.inputs = [] ∧ t = s) ∨
     (∃ a b rest, s.inputs = .agentStore a b :: rest ∧ t = agentStores a b rest s) ∨
     (∃ x rest, s.inputs = .bus x :: rest ∧
       exec (decode s.params.narrowAccess x) (takeTransaction rest s) = .next t)) := by
  unfold step at h
  split at h
  · cases h
  · rename_i hh
    refine ⟨hh, ?_⟩
    split at h
    · rename_i hi
      exact .inl ⟨hi, (Host.Outcome.next.inj h).symm⟩
    · rename_i a b rest hi
      exact .inr (.inl ⟨a, b, rest, hi, (Host.Outcome.next.inj h).symm⟩)
    · rename_i x rest hi
      exact .inr (.inr ⟨x, rest, hi, h⟩)

end Sys2Proof.Machine
end

