-- ==== Sys2Proof/Laws/PerInstr.lean ====
section
/-! SUPPORT. Statements about every instruction as written, one lemma per constructor. -/

namespace Sys2Proof.Laws.EncodesItsRow

/-- The encoded descriptor of a well-formed instruction matches the row of the opcode table that bears its mnemonic,
under the row's condition (30_encoding.md R68). -/
def Statement (i : Instr) : Prop :=
  ∀ p, wellFormed p i = true → ∃ r ∈ opcodeTable, r.mnemonic = i.mnemonic ∧ r.applies p (encode i).descriptor = true

/-- A row that stands in the table and whose mask and pattern fit settles the statement. -/
theorem of_row {i : Instr} (r : OpcodeRow) (hr : r ∈ opcodeTable) (hm : r.mnemonic = i.mnemonic)
    (hd : (encode i).descriptor &&& r.mask = r.pattern)
    (hc : ∀ p, wellFormed p i = true → r.condition = none ∨ r.condition = some p) : Statement i := by
  refine fun p h => ⟨r, hr, hm, ?_⟩
  rcases hc p h with hc | hc <;> simp [OpcodeRow.applies, hd, hc]

/-- A bus descriptor under a mask that keeps EV, DIR and OFFSET. -/
theorem masked_bus (w : Width) (dir : Bool) (off : Offset) :
    busDescriptor w dir off &&& 0x9FFF#16 = busDescriptor .w1 dir off := by
  apply BitVec.eq_of_getLsbD_eq
  intro i hi
  simp only [busDescriptor, BitVec.getLsbD_and, BitVec.getLsbD_or]
  by_cases h1 : i < 12
  · have h2 : (0x9FFF#16).getLsbD i = true := by
      interval_cases i <;> decide
    have h3 : i < 13 := by omega
    simp [h1, h2, h3]
  · have h2 : i = 12 ∨ i = 13 ∨ i = 14 ∨ i = 15 := by omega
    rcases h2 with rfl | rfl | rfl | rfl <;> simp [Width.code]

/-- A bus descriptor under a mask that keeps EV and DIR. -/
theorem masked_dir (w : Width) (dir : Bool) (off : Offset) :
    busDescriptor w dir off &&& 0x9000#16 = busDescriptor .w1 dir 0#12 := by
  apply BitVec.eq_of_getLsbD_eq
  intro i hi
  simp only [busDescriptor, BitVec.getLsbD_and, BitVec.getLsbD_or]
  by_cases h1 : i < 12
  · have h2 : (0x9000#16).getLsbD i = false := by
      interval_cases i <;> decide
    have h3 : i < 13 := by omega
    simp [h1, h2, h3]
  · have h2 : i = 12 ∨ i = 13 ∨ i = 14 ∨ i = 15 := by omega
    rcases h2 with rfl | rfl | rfl | rfl <;> simp [Width.code]

/-- A narrow bus descriptor under a mask that keeps EV and the high bit of SIZE. -/
theorem masked_narrow {w : Width} (hw : w.isNarrow = true) (dir : Bool) (off : Offset) :
    busDescriptor w dir off &&& 0xC000#16 = 0x0000#16 := by
  apply BitVec.eq_of_getLsbD_eq
  intro i hi
  simp only [busDescriptor, BitVec.getLsbD_and, BitVec.getLsbD_or]
  by_cases h1 : i < 12
  · have h2 : (0xC000#16).getLsbD i = false := by
      interval_cases i <;> decide
    simp [h2]
  · have h2 : i = 12 ∨ i = 13 ∨ i = 14 ∨ i = 15 := by omega
    rcases h2 with rfl | rfl | rfl | rfl <;> revert hw <;> cases w <;> simp [Width.code, Width.isNarrow]

theorem reset : Statement .reset :=
  of_row ⟨"RESET", 0x8000#16, 0xFFFF#16, 1, none⟩ (by decide) rfl (by decide) (fun _ _ => .inl rfl)

theorem reserved (rest : BitVec 15) : Statement (.reserved rest) :=
  of_row ⟨"RESERVED", 0x8000#16, 0x8000#16, 2, none⟩ (by decide) rfl (by
    apply BitVec.eq_of_getLsbD_eq
    intro i hi
    simp only [encode, eventDescriptor, BitVec.getLsbD_and, BitVec.getLsbD_or]
    by_cases h1 : i < 15
    · have h2 : (0x8000#16).getLsbD i = false := by
        interval_cases i <;> decide
      simp [h2]
    · have h2 : i = 15 := by omega
      subst h2
      simp) (fun _ _ => .inl rfl)

theorem narrowRefuse (w : Width) (off : Offset) (acc : Access) : Statement (.narrowRefuse w off acc) := by
  intro p h
  simp only [wellFormed, Bool.and_eq_true, beq_iff_eq] at h
  refine ⟨⟨"NARROW.REFUSE", 0x0000#16, 0xC000#16, 3, some .refuse⟩, by decide, rfl, ?_⟩
  cases acc <;> simp [OpcodeRow.applies, encode, encodeRead, encodeWrite, masked_narrow h.1, h.2]

theorem rdStart (w : Width) : Statement (.rdStart w) :=
  of_row ⟨"RD.START", 0x0000#16, 0x9FFF#16, 4, none⟩ (by decide) rfl
    (by simp only [encode, encodeRead]; rw [masked_bus]; decide) (fun _ _ => .inl rfl)

theorem rdControls (w : Width) : Statement (.rdControls w) :=
  of_row ⟨"RD.CONTROLS", 0x0004#16, 0x9FFF#16, 4, none⟩ (by decide) rfl
    (by simp only [encode, encodeRead]; rw [masked_bus]; decide) (fun _ _ => .inl rfl)

theorem rdSrcAddr (w : Width) : Statement (.rdSrcAddr w) :=
  of_row ⟨"RD.SRC_ADDR", 0x0008#16, 0x9FFF#16, 4, none⟩ (by decide) rfl
    (by simp only [encode, encodeRead]; rw [masked_bus]; decide) (fun _ _ => .inl rfl)

theorem rdLen (w : Width) : Statement (.rdLen w) :=
  of_row ⟨"RD.LEN", 0x000C#16, 0x9FFF#16, 4, none⟩ (by decide) rfl
    (by simp only [encode, encodeRead]; rw [masked_bus]; decide) (fun _ _ => .inl rfl)

theorem rdDstAddrW4 : Statement .rdDstAddrW4 :=
  of_row ⟨"RD.DST_ADDR.W4", 0x4010#16, 0xFFFF#16, 4, none⟩ (by decide) rfl (by decide) (fun _ _ => .inl rfl)

theorem rdDstAddrW8 : Statement .rdDstAddrW8 :=
  of_row ⟨"RD.DST_ADDR.W8", 0x6010#16, 0xFFFF#16, 4, none⟩ (by decide) rfl (by decide) (fun _ _ => .inl rfl)

theorem rdDstAddrNarrow (w : Width) : Statement (.rdDstAddrNarrow w) := by
  intro p h
  simp only [wellFormed, Bool.and_eq_true, beq_iff_eq] at h
  refine ⟨⟨"RD.DST_ADDR.NARROW", 0x0010#16, 0xDFFF#16, 4, some .literal⟩, by decide, rfl, ?_⟩
  obtain ⟨h1, rfl⟩ := h
  cases w <;> first | exact absurd h1 (by decide) | (simp only [encode, encodeRead]; decide)

theorem rdDstAddrHi (w : Width) : Statement (.rdDstAddrHi w) :=
  of_row ⟨"RD.DST_ADDR_HI", 0x0014#16, 0x9FFF#16, 4, none⟩ (by decide) rfl
    (by simp only [encode, encodeRead]; rw [masked_bus]; decide) (fun _ _ => .inl rfl)

theorem rdSettings (w : Width) : Statement (.rdSettings w) :=
  of_row ⟨"RD.SETTINGS", 0x0018#16, 0x9FFF#16, 4, none⟩ (by decide) rfl
    (by simp only [encode, encodeRead]; rw [masked_bus]; decide) (fun _ _ => .inl rfl)

theorem rdIrqEn (w : Width) : Statement (.rdIrqEn w) :=
  of_row ⟨"RD.IRQ_EN", 0x0054#16, 0x9FFF#16, 4, none⟩ (by decide) rfl
    (by simp only [encode, encodeRead]; rw [masked_bus]; decide) (fun _ _ => .inl rfl)

theorem rdIrqSta (w : Width) : Statement (.rdIrqSta w) :=
  of_row ⟨"RD.IRQ_STA", 0x0058#16, 0x9FFF#16, 4, none⟩ (by decide) rfl
    (by simp only [encode, encodeRead]; rw [masked_bus]; decide) (fun _ _ => .inl rfl)

theorem rdUndefined (off : Offset) (w : Width) : Statement (.rdUndefined off w) :=
  of_row ⟨"RD.UNDEFINED", 0x0000#16, 0x9000#16, 5, none⟩ (by decide) rfl
    (by simp only [encode, encodeRead]; rw [masked_dir]; decide) (fun _ _ => .inl rfl)

theorem wrStart (w : Width) (value : DWord) : Statement (.wrStart w value) :=
  of_row ⟨"WR.START", 0x1000#16, 0x9FFF#16, 4, none⟩ (by decide) rfl
    (by simp only [encode, encodeWrite]; rw [masked_bus]; decide) (fun _ _ => .inl rfl)

theorem wrControls (w : Width) (value : DWord) : Statement (.wrControls w value) :=
  of_row ⟨"WR.CONTROLS", 0x1004#16, 0x9FFF#16, 4, none⟩ (by decide) rfl
    (by simp only [encode, encodeWrite]; rw [masked_bus]; decide) (fun _ _ => .inl rfl)

theorem wrSrcAddr (w : Width) (value : DWord) : Statement (.wrSrcAddr w value) :=
  of_row ⟨"WR.SRC_ADDR", 0x1008#16, 0x9FFF#16, 4, none⟩ (by decide) rfl
    (by simp only [encode, encodeWrite]; rw [masked_bus]; decide) (fun _ _ => .inl rfl)

theorem wrLen (w : Width) (value : DWord) : Statement (.wrLen w value) :=
  of_row ⟨"WR.LEN", 0x100C#16, 0x9FFF#16, 4, none⟩ (by decide) rfl
    (by simp only [encode, encodeWrite]; rw [masked_bus]; decide) (fun _ _ => .inl rfl)

theorem wrDstAddrW4 (value : DWord) : Statement (.wrDstAddrW4 value) :=
  of_row ⟨"WR.DST_ADDR.W4", 0x5010#16, 0xFFFF#16, 4, none⟩ (by decide) rfl (by simp only [encode, encodeWrite]; decide) (fun _ _ => .inl rfl)

theorem wrDstAddrW8 (value : DWord) : Statement (.wrDstAddrW8 value) :=
  of_row ⟨"WR.DST_ADDR.W8", 0x7010#16, 0xFFFF#16, 4, none⟩ (by decide) rfl (by simp only [encode, encodeWrite]; decide) (fun _ _ => .inl rfl)

theorem wrDstAddrNarrow (w : Width) (value : DWord) : Statement (.wrDstAddrNarrow w value) := by
  intro p h
  simp only [wellFormed, Bool.and_eq_true, beq_iff_eq] at h
  refine ⟨⟨"WR.DST_ADDR.NARROW", 0x1010#16, 0xDFFF#16, 4, some .literal⟩, by decide, rfl, ?_⟩
  obtain ⟨h1, rfl⟩ := h
  cases w <;> first | exact absurd h1 (by decide) | (simp only [encode, encodeWrite]; decide)

theorem wrDstAddrHi (w : Width) (value : DWord) : Statement (.wrDstAddrHi w value) :=
  of_row ⟨"WR.DST_ADDR_HI", 0x1014#16, 0x9FFF#16, 4, none⟩ (by decide) rfl
    (by simp only [encode, encodeWrite]; rw [masked_bus]; decide) (fun _ _ => .inl rfl)

theorem wrSettings (w : Width) (value : DWord) : Statement (.wrSettings w value) :=
  of_row ⟨"WR.SETTINGS", 0x1018#16, 0x9FFF#16, 4, none⟩ (by decide) rfl
    (by simp only [encode, encodeWrite]; rw [masked_bus]; decide) (fun _ _ => .inl rfl)

theorem wrIrqEn (w : Width) (value : DWord) : Statement (.wrIrqEn w value) :=
  of_row ⟨"WR.IRQ_EN", 0x1054#16, 0x9FFF#16, 4, none⟩ (by decide) rfl
    (by simp only [encode, encodeWrite]; rw [masked_bus]; decide) (fun _ _ => .inl rfl)

theorem wrIrqSta (w : Width) (value : DWord) : Statement (.wrIrqSta w value) :=
  of_row ⟨"WR.IRQ_STA", 0x1058#16, 0x9FFF#16, 4, none⟩ (by decide) rfl
    (by simp only [encode, encodeWrite]; rw [masked_bus]; decide) (fun _ _ => .inl rfl)

theorem wrUndefined (off : Offset) (w : Width) (value : DWord) : Statement (.wrUndefined off w value) :=
  of_row ⟨"WR.UNDEFINED", 0x1000#16, 0x9000#16, 5, none⟩ (by decide) rfl
    (by simp only [encode, encodeWrite]; rw [masked_dir]; decide) (fun _ _ => .inl rfl)

end Sys2Proof.Laws.EncodesItsRow
end

