-- ==== Sys2Proof/Laws/Steps.lean ====
section
/-! SUPPORT. What a step did, in terms of the transaction and not of the decoded instruction: one inversion for every
rule about the whole machine, and the spec lemmas of a START write that completes. -/

namespace Sys2Proof.Machine

/-! ## What a transaction decodes to -/

/-- A Read decodes to a register read, or to RD.UNDEFINED. -/
theorem decodeRead_cases (off : Offset) (w : Width) :
    (Reads (decodeRead off w) ∧ undefinedOffset off = false) ∨
    (decodeRead off w = .rdUndefined off w ∧ undefinedOffset off = true) := by
  by_cases h : undefinedOffset off = true
  · exact .inr ⟨decodeRead_undefined h w, h⟩
  · refine .inl ⟨?_, by simpa using h⟩
    have hd : off ∈ Config.definedOffsets := by simpa [undefinedOffset] using h
    simp only [Config.definedOffsets, List.mem_cons, List.not_mem_nil, or_false] at hd
    rcases hd with rfl | rfl | rfl | rfl | rfl | rfl | rfl | rfl | rfl <;>
      first
      | (simp only [decodeRead_offDstAddr]; cases w <;> trivial)
      | (simp only [decodeRead_offStart, decodeRead_offControls, decodeRead_offSrcAddr, decodeRead_offLen,
          decodeRead_offDstAddrHi, decodeRead_offSettings, decodeRead_offIrqEn, decodeRead_offIrqSta]; trivial)

/-- A register read hands a value back and does nothing else. -/
theorem exec_reads {i : Instr} (h : Reads i) (s : State) : ∃ v, exec i s = .next (s.respond (some v)) := by
  cases i <;> first | exact ⟨_, rfl⟩ | exact False.elim h

/-- A Write decodes to a register write that only stores, to one of the three that drive the line, or to
WR.UNDEFINED. -/
theorem decodeWrite_cases (off : Offset) (w : Width) (v : DWord) :
    (off = Config.offStart ∧ decodeWrite off w v = .wrStart w v) ∨
    (off = Config.offIrqEn ∧ decodeWrite off w v = .wrIrqEn w v) ∨
    (off = Config.offIrqSta ∧ decodeWrite off w v = .wrIrqSta w v) ∨
    (undefinedOffset off = true ∧ decodeWrite off w v = .wrUndefined off w v) ∨
    (undefinedOffset off = false ∧ off ≠ Config.offStart ∧ off ≠ Config.offIrqEn ∧ off ≠ Config.offIrqSta ∧
      Stores (decodeWrite off w v)) := by
  by_cases h : undefinedOffset off = true
  · exact .inr (.inr (.inr (.inl ⟨h, decodeWrite_undefined h w v⟩)))
  · have hd : off ∈ Config.definedOffsets := by simpa [undefinedOffset] using h
    simp only [Config.definedOffsets, List.mem_cons, List.not_mem_nil, or_false] at hd
    rcases hd with rfl | rfl | rfl | rfl | rfl | rfl | rfl | rfl | rfl
    case inl => exact .inl ⟨rfl, decodeWrite_offStart w v⟩
    case inr.inr.inr.inr.inl =>
      refine .inr (.inr (.inr (.inr ⟨by decide, by decide, by decide, by decide, ?_⟩)))
      rw [decodeWrite_offDstAddr]
      cases w <;> trivial
    case inr.inr.inr.inr.inr.inr.inr.inl => exact .inr (.inl ⟨rfl, decodeWrite_offIrqEn w v⟩)
    case inr.inr.inr.inr.inr.inr.inr.inr => exact .inr (.inr (.inl ⟨rfl, decodeWrite_offIrqSta w v⟩))
    all_goals
      refine .inr (.inr (.inr (.inr ⟨by decide, by decide, by decide, by decide, ?_⟩)))
      simp only [decodeWrite_offControls, decodeWrite_offSrcAddr, decodeWrite_offLen, decodeWrite_offDstAddrHi,
        decodeWrite_offSettings]
      trivial

/-- A write that only stores gives a next state with a new bank, in which START, IRQ_EN and IRQ_STA are as before. -/
theorem exec_stores {i : Instr} (h : Stores i) (s : State) :
    ∃ b, exec i s = .next ((s.setBank b).respond none) ∧
      b.irqEn = s.dev.bank.irqEn ∧ b.irqSta = s.dev.bank.irqSta ∧ b.start = s.dev.bank.start := by
  cases i <;> first | exact ⟨_, rfl, rfl, rfl, rfl⟩ | exact False.elim h

/-- The five kinds of transaction and what each decodes to (R57, R64, R65, R68). -/
theorem decode_cases (p : NarrowAccess) (t : Txn) :
    (evField t.descriptor = true ∧ t.isReset = true ∧ decode p t = .reset) ∨
    (evField t.descriptor = true ∧ t.isReset = false ∧
      ∃ r, decode p t = .reserved r ∧ eventDescriptor r = t.descriptor) ∨
    (evField t.descriptor = false ∧ t.width.isNarrow = true ∧ p = .refuse ∧
      decode p t = .narrowRefuse t.width (offsetField t.descriptor) t.access) ∨
    (t.isRead = true ∧ (t.width.isNarrow = true → p = .literal) ∧
      decode p t = decodeRead (offsetField t.descriptor) t.width) ∨
    (t.isWrite = true ∧ (t.width.isNarrow = true → p = .literal) ∧
      decode p t = decodeWrite (offsetField t.descriptor) t.width t.data) := by
  cases hev : evField t.descriptor with
  | true =>
    by_cases h : t.descriptor = 0x8000#16
    · exact .inl ⟨rfl, by simp [Txn.isReset, h], by rw [decode_event hev, if_pos h]⟩
    · exact .inr (.inl ⟨rfl, by simp [Txn.isReset, h], _, by rw [decode_event hev, if_neg h],
        eventDescriptor_fields hev⟩)
  | false =>
    refine .inr (.inr ?_)
    by_cases hw : t.width.isNarrow = true → p = .literal
    · refine .inr ?_
      cases hd : dirField t.descriptor
      · refine .inl ⟨by simp [Txn.isRead, hev, hd], hw, ?_⟩
        rw [decode_bus hev hw]
        simp [Txn.access, hd, decodeRegister]
      · refine .inr ⟨by simp [Txn.isWrite, hev, hd], hw, ?_⟩
        rw [decode_bus hev hw]
        simp [Txn.access, hd, decodeRegister]
    · have hn : t.width.isNarrow = true := by
        by_contra h
        exact hw (fun h' => absurd h' h)
      cases p with
      | literal => exact absurd (fun _ => rfl) hw
      | refuse => exact .inl ⟨rfl, hn, rfl, decode_narrow hev hn⟩

theorem writesTo_eq {t : Txn} (h : t.isWrite = true) (off : Offset) :
    t.writesTo off = (offsetField t.descriptor == off) := by
  simp [Txn.writesTo, h]

theorem writesTo_of_not_write {t : Txn} (h : t.isWrite = false) (off : Offset) : t.writesTo off = false := by
  simp [Txn.writesTo, h]

/-- The kinds exclude each other. -/
theorem not_write_of_read {t : Txn} (h : t.isRead = true) : t.isWrite = false := by
  simp only [Txn.isRead, Bool.and_eq_true, Bool.not_eq_true'] at h
  simp [Txn.isWrite, h.1, h.2]

theorem not_write_of_event {t : Txn} (h : evField t.descriptor = true) : t.isWrite = false := by
  simp [Txn.isWrite, h]

theorem not_reset_of_bus {t : Txn} (h : evField t.descriptor = false) : t.isReset = false := by
  simp only [Txn.isReset, beq_eq_false_iff_ne, ne_eq]
  intro hd
  rw [hd] at h
  revert h
  decide

/-! ## What a completed transaction did -/

/-- `Did s t u`: transaction `t`, performed in `s`, left `u`. One case per kind of effect the spec gives. -/
inductive Did (s : State) (t : Txn) (u : State) : Prop
  | read (h : t.isRead = true) (v : DWord) (e : u = s.respond (some v))
  | readUndefined (h : t.isRead = true) (o : undefinedOffset (offsetField t.descriptor) = true)
      (e : u = (s.record (.protocolViolationRead (offsetField t.descriptor) t.width)).respond (some 0#64))
  | writeUndefined (h : t.isWrite = true) (o : undefinedOffset (offsetField t.descriptor) = true)
      (e : u = (s.record (.protocolViolationWrite (offsetField t.descriptor) t.width
        (busValue t.width t.data))).respond none)
  | store (h : t.isWrite = true) (o : undefinedOffset (offsetField t.descriptor) = false)
      (o0 : t.writesTo 0x000#12 = false) (o1 : t.writesTo 0x054#12 = false) (o2 : t.writesTo 0x058#12 = false)
      (b : Bank) (e : u = (s.setBank b).respond none) (e0 : b.start = s.dev.bank.start)
      (e1 : b.irqEn = s.dev.bank.irqEn) (e2 : b.irqSta = s.dev.bank.irqSta)
  | irqEn (h : t.isWrite = true) (o1 : offsetField t.descriptor = 0x054#12)
      (e : u = (recompute (s.setBank { s.dev.bank with irqEn := low32 (busValue t.width t.data) })).respond none)
  | irqSta (h : t.isWrite = true) (o2 : offsetField t.descriptor = 0x058#12)
      (e : u = (recompute (s.setBank { s.dev.bank with
        irqSta := ackStatus s.dev.bank.irqSta (busValue t.width t.data) })).respond none)
  | reset (h : t.isReset = true) (hw : t.isWrite = false)
      (e : u = ((s.setBank Bank.reset).setLevel false).respond none)
  | start (h : t.isWrite = true) (o0 : offsetField t.descriptor = 0x000#12)
      (e : execWrStart t.width t.data s = .next u)

/-- Everything a decoded transaction can do when it answers a next state. -/
theorem did_of_next {s u : State} {p : NarrowAccess} {t : Txn} (h : exec (decode p t) s = .next u) : Did s t u := by
  rcases decode_cases p t with ⟨h1, h2, hd⟩ | ⟨_, _, r, hd, _⟩ | ⟨_, _, _, hd⟩ | ⟨h1, _, hd⟩ | ⟨h1, _, hd⟩ <;> rw [hd] at h
  · exact .reset h2 (not_write_of_event h1) (Host.Outcome.next.inj h).symm
  · cases h
  · cases h
  · rcases decodeRead_cases (offsetField t.descriptor) t.width with ⟨hr, _⟩ | ⟨hr, ho⟩
    · obtain ⟨v, hv⟩ := exec_reads hr s
      rw [hv] at h
      exact .read h1 v (Host.Outcome.next.inj h).symm
    · rw [hr] at h
      exact .readUndefined h1 ho (Host.Outcome.next.inj h).symm
  · rcases decodeWrite_cases (offsetField t.descriptor) t.width t.data with
      ⟨ho, hw⟩ | ⟨ho, hw⟩ | ⟨ho, hw⟩ | ⟨ho, hw⟩ | ⟨ho, n0, n1, n2, hw⟩
    · rw [hw] at h
      exact .start h1 ho h
    · rw [hw] at h
      exact .irqEn h1 ho (Host.Outcome.next.inj h).symm
    · rw [hw] at h
      exact .irqSta h1 ho (Host.Outcome.next.inj h).symm
    · rw [hw] at h
      exact .writeUndefined h1 ho (Host.Outcome.next.inj h).symm
    · obtain ⟨b, hb, e1, e2, e0⟩ := exec_stores hw s
      rw [hb] at h
      refine .store h1 ho ?_ ?_ ?_ b (Host.Outcome.next.inj h).symm e0 e1 e2 <;> rw [writesTo_eq h1] <;> simpa

/-- Everything a step can do when it answers a next state: nothing was pending, another agent stored a byte, or a
transaction was performed on the state in which it has been taken. -/
theorem step_did {s u : State} (h : step s = .next u) :
    s.dev.halted = none ∧
    ((s.inputs = [] ∧ u = s) ∨
     (∃ a b rest, s.inputs = .agentStore a b :: rest ∧ u = agentStores a b rest s) ∨
     (∃ t rest, Pending s t rest ∧ Did (takeTransaction rest s) t u)) := by
  obtain ⟨h0, h1 | h1 | ⟨t, rest, h1, h2⟩⟩ := step_next h
  · exact ⟨h0, .inl h1⟩
  · exact ⟨h0, .inr (.inl h1)⟩
  · exact ⟨h0, .inr (.inr ⟨t, rest, ⟨h0, h1⟩, did_of_next h2⟩)⟩

/-! ## A START write by what the registers describe -/

/-- The four outcomes of a triggering START write (R85, R99, R44, R100). -/
theorem execWrStart_cases (w : Width) {value : DWord} (hv : value.getLsbD 0 = true) (s : State) :
    (effectiveStep s.params s.dev.bank = 0 ∧ s.params.zeroChunk = .hang ∧
      execWrStart w value s = .fault (.zeroChunkHang ((startStored w value s).halt .zeroChunkHang))) ∨
    (effectiveStep s.params s.dev.bank = 0 ∧ s.params.zeroChunk ≠ .hang ∧
      execWrStart w value s = .next (finishStart ((startStored w value s).record
        (.zeroChunkRejected (low32 (busValue w value)) s.dev.bank.controls)))) ∨
    (1 ≤ effectiveStep s.params s.dev.bank ∧ ¬TransferFits s.params s.dev.bank ∧
      execWrStart w value s = .refused (.chunkCrossesTop
        (if 2 ^ 64 < (srcAbs s.params s.dev.bank).toNat + firstChunk s.params s.dev.bank
          then srcAbs s.params s.dev.bank else dstCur s.dev.bank)
        (firstChunk s.params s.dev.bank))) ∨
    (TransferRuns s.params s.dev.bank ∧
      execWrStart w value s =
        .next (finishStart (transferred (effectiveStep s.params s.dev.bank) (startStored w value s)))) := by
  have he : effectiveStep (startStored w value s).params (startStored w value s).dev.bank =
    effectiveStep s.params s.dev.bank := rfl
  rw [execWrStart_eq, if_pos hv, runEngine_eq, he]
  by_cases h0 : effectiveStep s.params s.dev.bank = 0
  · rw [if_pos h0]
    by_cases hz : s.params.zeroChunk = .hang
    · exact .inl ⟨h0, hz, by rw [if_pos (by exact hz)]; rfl⟩
    · exact .inr (.inl ⟨h0, hz, by rw [if_neg (by exact hz)]; rfl⟩)
  · have hs : 1 ≤ effectiveStep s.params s.dev.bank := by omega
    rw [if_neg h0]
    rcases transfer_cases hs (startStored w value s) with ⟨h1, h2, h3⟩ | ⟨h1, h3⟩
    · exact .inr (.inr (.inr ⟨⟨hs, h1, h2⟩, by rw [h3]; rfl⟩))
    · refine .inr (.inr (.inl ⟨hs, fun hf => ?_, by rw [h3]; rfl⟩))
      have h4 : (srcAbs (startStored w value s).params (startStored w value s).dev.bank).toNat +
          min (effectiveStep s.params s.dev.bank) (transferLength (startStored w value s).dev.bank) ≤ 2 ^ 64 := hf.1
      have h5 : (dstCur (startStored w value s).dev.bank).toNat +
          min (effectiveStep s.params s.dev.bank) (transferLength (startStored w value s).dev.bank) ≤ 2 ^ 64 := hf.2
      omega

/-! ## What the chunks did on the port and in memory -/

/-- Memory after the chunks is the recurrence of R102. -/
theorem readByte_copyChunks (src dst : Addr) (ks : List Nat) (hk : ∀ k ∈ ks, k ≤ 2 ^ 64) : ∀ (s : State) (a : Addr),
    (copyChunks src dst ks s).mem.readByte a = memoryAfter src dst ks s.mem.readByte a := by
  induction ks with
  | nil => exact fun _ _ => rfl
  | cons k ks ih =>
    intro s a
    have hM : (copyChunk src dst k s).mem.readByte = copyOnce src dst k s.mem.readByte :=
      funext (readByte_copyChunk src dst (hk k (by simp)) s)
    rw [copyChunks_cons, ih (fun k' h => hk k' (by simp [h])), hM]
    rfl

/-- The port sees a MemRead and a MemWrite per chunk, the write with the bytes the read returned, and each read returns
the bytes that memory held after the chunks before it (R10, R100, R101, R102). -/
theorem copyChunks_port (src dst : Addr) (ks : List Nat) (hk : ∀ k ∈ ks, k ≤ 2 ^ 64) : ∀ s : State,
    ∃ bufs : List (List Byte),
      (copyChunks src dst ks s).port = s.port ++ bufs.flatMap (fun b => [.memRead src b, .memWrite dst b]) ∧
      bufs.map List.length = ks ∧
      ∀ (i : Nat) (b : List Byte), bufs[i]? = some b → ∀ j : Nat, j < b.length →
        b[j]? = some (memoryAfter src dst (ks.take i) s.mem.readByte (src + BitVec.ofNat 64 j)) := by
  induction ks with
  | nil => exact fun s => ⟨[], by simp, rfl, by simp⟩
  | cons k ks ih =>
    intro s
    have hM : (copyChunk src dst k s).mem.readByte = copyOnce src dst k s.mem.readByte :=
      funext (readByte_copyChunk src dst (hk k (by simp)) s)
    obtain ⟨bufs, h1, h2, h3⟩ := ih (fun k' h => hk k' (by simp [h])) (copyChunk src dst k s)
    refine ⟨s.mem.readBytes src k :: bufs, ?_, by simp [h2], fun i b hb j hj => ?_⟩
    · rw [copyChunks_cons, h1, copyChunk_port]
      simp
    · cases i with
      | zero =>
        rw [List.getElem?_cons_zero, Option.some.injEq] at hb
        subst hb
        exact readBytes_get _ _ _ _ (by simpa using hj)
      | succ i =>
        rw [List.getElem?_cons_succ] at hb
        rw [h3 i b hb j hj, hM]
        rfl

end Sys2Proof.Machine
end

