-- ==== Sys2Proof/Tests/Slice0.lean ====
section
/-! SUPPORT. The model's own tests: every row's decoding from a word written out from the spec's encoding, the
well-formedness smoke, one-step tests whose results are those of 95_test_vectors.md, and a witness for the hypotheses of
every statement that has some. -/

namespace Sys2Proof.Tests

open Sys2Proof Sys2Proof.Machine

/-! ## Helpers -/

/-- The next state of an outcome, if it is one. -/
def nextOf : Host.Outcome State Fault Refusal → Option State
  | .next s => some s
  | .fault _ => none
  | .refused _ => none

/-- The refusal of an outcome, if it is one. -/
def refusalOf : Host.Outcome State Fault Refusal → Option Refusal
  | .next _ => none
  | .fault _ => none
  | .refused r => some r

/-- The fault of an outcome, if it is one. -/
def faultOf : Host.Outcome State Fault Refusal → Option Fault
  | .next _ => none
  | .fault r => some r
  | .refused _ => none

/-- A device at construction with given policies and the default BASE. -/
def built (z : ZeroChunkPolicy) (n : NarrowAccess) : State :=
  State.construct { base := Config.defaultBase, zeroChunk := z, narrowAccess := n }

/-- A state with another bank. -/
def withBank (b : Bank) (s : State) : State := { s with dev := { s.dev with bank := b } }

/-- A state whose next transaction has a given descriptor and data word. -/
def pends (d : BitVec 16) (x : DWord) (s : State) : State := presentNext ⟨d, x⟩ s

/-- The next state of a step with a given transaction pending. -/
def does (d : BitVec 16) (x : DWord) (s : State) : Option State := nextOf (step (pends d x s))

/-- The bank of program P1 before its START write, with BASE at the default (95_test_vectors.md section 3). -/
def bankP1 : Bank :=
  { Bank.reset with controls := 0x4#32, srcAddr := 0x10#32, len := 0xF#32, dstAddr := 0x80000000#64, irqEn := 0x2#32 }

/-- Program P1's memory: M[0x7000_0010 + j] = j + 1 for the first four j, and a zero past the first destination chunk. -/
def memP1 : Memory :=
  [(0x70000010, 1#8), (0x70000011, 2#8), (0x70000012, 3#8), (0x70000013, 4#8), (0x80000004, 0#8)]

/-- Program P1 before its START write. -/
def readyP1 : State := { withBank bankP1 State.reset with mem := memP1 }

/-- A state with a status and an enable. -/
def withIrq (en sta : Word) (s : State) : State := withBank { s.dev.bank with irqEn := en, irqSta := sta } s

/-- A trigger whose destination is given, 4 bytes in chunks of a given size. -/
def bankTo (dst : DWord) (c : Word) : Bank := { bankP1 with dstAddr := dst, len := 3#32, controls := c }

/-- The zero-chunk start of 95_test_vectors.md 2.5: LEN = 15, CONTROLS = 0x100, IRQ_EN = 2. -/
def bankZero : Bank := { Bank.reset with len := 0xF#32, controls := 0x100#32, irqEn := 0x2#32 }

/-! ## Decoding: words written out field by field, EV | SIZE | DIR | OFFSET (R57, R60), data words of any value -/

theorem test_decode_reset : ∀ p x, decode p ⟨0b1_00_0_0000_0000_0000#16, x⟩ = .reset :=
  decode_resetWord

theorem test_decode_reserved : ∀ p x, decode p ⟨0b1_00_0_0000_0000_0001#16, x⟩ = .reserved 1#15 :=
  fun p x => decode_eventWord p x (by decide) (by decide)

theorem test_decode_reserved_all_ones : ∀ p x, decode p ⟨0xFFFF#16, x⟩ = .reserved 0x7FFF#15 :=
  fun p x => decode_eventWord p x (by decide) (by decide)

theorem test_decode_narrowRefuse : ∀ x,
    decode .refuse ⟨0b0_01_0_0000_0101_0100#16, x⟩ = .narrowRefuse .w2 0x054#12 .read :=
  fun x => decode_narrowWord (w := .w2) (dir := false) (off := 0x054#12) x (by decide) rfl

theorem test_decode_narrowRefuse_write : ∀ x,
    decode .refuse ⟨0b0_00_1_0000_0001_0000#16, x⟩ = .narrowRefuse .w1 0x010#12 (.write x) :=
  fun x => decode_narrowWord (w := .w1) (dir := true) (off := 0x010#12) x (by decide) rfl

theorem test_decode_rdStart : ∀ p x, decode p ⟨0b0_10_0_0000_0000_0000#16, x⟩ = .rdStart .w4 :=
  fun p x => decode_readWord (w := .w4) (off := 0x000#12) x (by decide) rfl

theorem test_decode_rdControls : ∀ p x, decode p ⟨0b0_11_0_0000_0000_0100#16, x⟩ = .rdControls .w8 :=
  fun p x => decode_readWord (w := .w8) (off := 0x004#12) x (by decide) rfl

theorem test_decode_rdSrcAddr : ∀ p x, decode p ⟨0b0_10_0_0000_0000_1000#16, x⟩ = .rdSrcAddr .w4 :=
  fun p x => decode_readWord (w := .w4) (off := 0x008#12) x (by decide) rfl

theorem test_decode_rdLen : ∀ p x, decode p ⟨0b0_11_0_0000_0000_1100#16, x⟩ = .rdLen .w8 :=
  fun p x => decode_readWord (w := .w8) (off := 0x00C#12) x (by decide) rfl

theorem test_decode_rdDstAddrW4 : ∀ p x, decode p ⟨0b0_10_0_0000_0001_0000#16, x⟩ = .rdDstAddrW4 :=
  fun p x => decode_readWord (w := .w4) (off := 0x010#12) x (by decide) rfl

theorem test_decode_rdDstAddrW8 : ∀ p x, decode p ⟨0b0_11_0_0000_0001_0000#16, x⟩ = .rdDstAddrW8 :=
  fun p x => decode_readWord (w := .w8) (off := 0x010#12) x (by decide) rfl

theorem test_decode_rdDstAddrNarrow : ∀ x, decode .literal ⟨0b0_00_0_0000_0001_0000#16, x⟩ = .rdDstAddrNarrow .w1 :=
  fun x => decode_readWord (w := .w1) (off := 0x010#12) x (by decide) rfl

theorem test_decode_rdDstAddrHi : ∀ p x, decode p ⟨0b0_10_0_0000_0001_0100#16, x⟩ = .rdDstAddrHi .w4 :=
  fun p x => decode_readWord (w := .w4) (off := 0x014#12) x (by decide) rfl

theorem test_decode_rdSettings : ∀ p x, decode p ⟨0b0_10_0_0000_0001_1000#16, x⟩ = .rdSettings .w4 :=
  fun p x => decode_readWord (w := .w4) (off := 0x018#12) x (by decide) rfl

theorem test_decode_rdIrqEn : ∀ x, decode .literal ⟨0b0_01_0_0000_0101_0100#16, x⟩ = .rdIrqEn .w2 :=
  fun x => decode_readWord (w := .w2) (off := 0x054#12) x (by decide) rfl

theorem test_decode_rdIrqSta : ∀ p x, decode p ⟨0b0_10_0_0000_0101_1000#16, x⟩ = .rdIrqSta .w4 :=
  fun p x => decode_readWord (w := .w4) (off := 0x058#12) x (by decide) rfl

theorem test_decode_rdUndefined : ∀ p x, decode p ⟨0b0_10_0_0000_0001_0010#16, x⟩ = .rdUndefined 0x012#12 .w4 :=
  fun p x => decode_readWord (w := .w4) (off := 0x012#12) x (by decide) rfl

theorem test_decode_wrStart : ∀ p x, decode p ⟨0b0_11_1_0000_0000_0000#16, x⟩ = .wrStart .w8 x :=
  fun p x => decode_writeWord (w := .w8) (off := 0x000#12) x (by decide) rfl

theorem test_decode_wrControls : ∀ p x, decode p ⟨0b0_10_1_0000_0000_0100#16, x⟩ = .wrControls .w4 x :=
  fun p x => decode_writeWord (w := .w4) (off := 0x004#12) x (by decide) rfl

theorem test_decode_wrSrcAddr : ∀ p x, decode p ⟨0b0_10_1_0000_0000_1000#16, x⟩ = .wrSrcAddr .w4 x :=
  fun p x => decode_writeWord (w := .w4) (off := 0x008#12) x (by decide) rfl

theorem test_decode_wrLen : ∀ p x, decode p ⟨0b0_10_1_0000_0000_1100#16, x⟩ = .wrLen .w4 x :=
  fun p x => decode_writeWord (w := .w4) (off := 0x00C#12) x (by decide) rfl

theorem test_decode_wrDstAddrW4 : ∀ p x, decode p ⟨0b0_10_1_0000_0001_0000#16, x⟩ = .wrDstAddrW4 x :=
  fun p x => decode_writeWord (w := .w4) (off := 0x010#12) x (by decide) rfl

theorem test_decode_wrDstAddrW8 : ∀ p x, decode p ⟨0b0_11_1_0000_0001_0000#16, x⟩ = .wrDstAddrW8 x :=
  fun p x => decode_writeWord (w := .w8) (off := 0x010#12) x (by decide) rfl

theorem test_decode_wrDstAddrNarrow : ∀ x, decode .literal ⟨0b0_01_1_0000_0001_0000#16, x⟩ = .wrDstAddrNarrow .w2 x :=
  fun x => decode_writeWord (w := .w2) (off := 0x010#12) x (by decide) rfl

theorem test_decode_wrDstAddrHi : ∀ p x, decode p ⟨0b0_10_1_0000_0001_0100#16, x⟩ = .wrDstAddrHi .w4 x :=
  fun p x => decode_writeWord (w := .w4) (off := 0x014#12) x (by decide) rfl

theorem test_decode_wrSettings : ∀ p x, decode p ⟨0b0_10_1_0000_0001_1000#16, x⟩ = .wrSettings .w4 x :=
  fun p x => decode_writeWord (w := .w4) (off := 0x018#12) x (by decide) rfl

theorem test_decode_wrIrqEn : ∀ p x, decode p ⟨0b0_10_1_0000_0101_0100#16, x⟩ = .wrIrqEn .w4 x :=
  fun p x => decode_writeWord (w := .w4) (off := 0x054#12) x (by decide) rfl

theorem test_decode_wrIrqSta : ∀ p x, decode p ⟨0b0_11_1_0000_0101_1000#16, x⟩ = .wrIrqSta .w8 x :=
  fun p x => decode_writeWord (w := .w8) (off := 0x058#12) x (by decide) rfl

theorem test_decode_wrUndefined : ∀ p x, decode p ⟨0b0_10_1_1111_1111_1111#16, x⟩ = .wrUndefined 0xFFF#12 .w4 x :=
  fun p x => decode_writeWord (w := .w4) (off := 0xFFF#12) x (by decide) rfl

/-- Words numbered as the opcode table numbers them: the data word stands above the descriptor's 16 bits. -/
theorem test_decodeTableWord :
    decodeTableWord 80 0x0000000000000001_5000 = some (.wrStart .w4 1#64) ∧
    decodeTableWord 16 0x4058 = some (.rdIrqSta .w4) ∧
    decodeTableWord 16 0x5058 = some (.wrIrqSta .w4 0#64) ∧
    decodeTableWord 16 0x8000 = some .reset ∧
    decodeTableWord 16 0x9000 = some (.reserved 0x1000#15) ∧
    decodeTableWord 16 0x0001 = some (.narrowRefuse .w1 0x001#12 .read) := by decide

/-- The word presented by `withFetchWord` is what the very next step runs (here `RD64 CONTROLS`, 0x6004). -/
theorem test_withFetchWord :
    (nextOf (step (State.reset.withFetchWord 16 0x6004))).map (·.response) = some (some 0x1FFF#64) := by decide

/-! ## Well-formedness smoke: each check refuses an ill-formed term -/

theorem test_illformed_reserved : wellFormed .refuse (.reserved 0#15) = false := by decide

theorem test_illformed_narrowRefuse : wellFormed .refuse (.narrowRefuse .w4 0x000#12 .read) = false ∧
    wellFormed .literal (.narrowRefuse .w1 0x000#12 .read) = false := by decide

theorem test_illformed_narrow_dst : wellFormed .literal (.rdDstAddrNarrow .w4) = false ∧
    wellFormed .literal (.wrDstAddrNarrow .w8 0#64) = false ∧
    wellFormed .refuse (.rdDstAddrNarrow .w1) = false ∧ wellFormed .refuse (.wrDstAddrNarrow .w2 0#64) = false := by
  decide

theorem test_illformed_width : ∀ i ∈ [Instr.rdStart .w1, .rdControls .w2, .rdSrcAddr .w1, .rdLen .w2, .rdDstAddrHi .w1,
    .rdSettings .w2, .rdIrqEn .w1, .rdIrqSta .w2, .rdUndefined 0x01C#12 .w1, .wrStart .w1 0#64, .wrControls .w2 0#64,
    .wrSrcAddr .w1 0#64, .wrLen .w2 0#64, .wrDstAddrHi .w1 0#64, .wrSettings .w2 0#64, .wrIrqEn .w1 0#64,
    .wrIrqSta .w2 0#64, .wrUndefined 0x01C#12 .w1 0#64], wellFormed .refuse i = false := by decide

theorem test_illformed_offset : wellFormed .literal (.rdUndefined 0x058#12 .w4) = false ∧
    wellFormed .literal (.wrUndefined 0x000#12 .w8 0#64) = false := by decide

/-! ## Reads (95_test_vectors.md 2.2) -/

theorem test_rdControls_reset : (does 0x4004#16 0#64 State.reset).map (·.response) = some (some 0x1FFF#64) := by decide

theorem test_rdLen_reset : (does 0x600C#16 0#64 State.reset).map (·.response) = some (some 0x3FFF#64) := by decide

/-- DST = 0x0000_0007_AAAA_BBBB: the three views. -/
theorem test_rdDstAddr_views :
    let s := withBank { Bank.reset with dstAddr := 0x00000007AAAABBBB#64 } State.reset
    (does 0x4010#16 0#64 s).map (·.response) = some (some 0xAAAABBBB#64) ∧
    (does 0x6010#16 0#64 s).map (·.response) = some (some 0x00000007AAAABBBB#64) ∧
    (does 0x4014#16 0#64 s).map (·.response) = some (some 0x7#64) ∧
    (does 0x6014#16 0#64 s).map (·.response) = some (some 0x7#64) := by decide

/-- `RD32 0x01C` gives 0 and one event. -/
theorem test_rdUndefined : (does 0x401C#16 0#64 State.reset).map (fun t => (t.response, t.log)) =
    some (some 0#64, [.protocolViolationRead 0x01C#12 .w4]) := by decide

/-- `RD8 START` is refused under the default parameters. -/
theorem test_narrow_refused :
    refusalOf (step (pends 0x0000#16 0#64 State.reset)) = some (.narrowAccess 0x0000#16) := by decide

theorem test_reserved_refused :
    refusalOf (step (pends 0xC000#16 0#64 State.reset)) = some (.reservedDescriptor 0xC000#16) := by decide

/-! ## Writes (95_test_vectors.md 2.2, 2.3) -/

/-- `WR64 CONTROLS, 0xFFFF_FFFF_1234_5678` stores 0x1234_5678 and leaves SRC_ADDR alone. -/
theorem test_wrControls_w8 : (does 0x7004#16 0xFFFFFFFF12345678#64 State.reset).map (·.dev.bank) =
    some { Bank.reset with controls := 0x12345678#32 } := by decide

theorem test_wrStart_no_trigger : (does 0x5000#16 0xFFFFFFFE#64 State.reset).map (·.dev.bank) =
    some { Bank.reset with start := 0xFFFFFFFE#32 } := by decide

/-- The low view keeps the high half, and only value[31:0] of a width-4 data word counts. -/
theorem test_wrDstAddrW4 :
    (does 0x5010#16 0x123456789#64 (withBank { Bank.reset with dstAddr := 0x00000007AAAABBBB#64 } State.reset)).map
      (·.dev.bank.dstAddr) = some 0x0000000723456789#64 := by decide

/-- The full view at width 8 loses the high half; the high view takes value[31:0] alone. -/
theorem test_wrDstAddrW8_and_Hi :
    (does 0x7010#16 0x2#64 (withBank { Bank.reset with dstAddr := 0x100000000#64 } State.reset)).map
      (·.dev.bank.dstAddr) = some 0x2#64 ∧
    (does 0x7014#16 0x100000007#64 (withBank { Bank.reset with dstAddr := 0x0000CAFEAAAABBBB#64 } State.reset)).map
      (·.dev.bank.dstAddr) = some 0x00000007AAAABBBB#64 := by decide

/-- Under `literal`, `WR8 DST_ADDR, 0xAB` replaces all 64 bits. -/
theorem test_wrDstAddrNarrow :
    (does 0x1010#16 0xFFAB#64 (withBank { Bank.reset with dstAddr := 0xFFFFFFFFFFFFFFFF#64 } (built .hang .literal))).map
      (·.dev.bank.dstAddr) = some 0xAB#64 := by decide

theorem test_wrUndefined : (does 0x5001#16 0x1#64 State.reset).map (fun t => (t.dev, t.log)) =
    some (State.reset.dev, [.protocolViolationWrite 0x001#12 .w4 0x1#64]) := by decide

/-- Unmasking with PENDING set asserts the line; DONE_EN alone among IRQ_EN's bits counts. -/
theorem test_wrIrqEn : (does 0x5054#16 0x2#64 (withIrq 0#32 0x42#32 State.reset)).map (·.dev.irqOut) = some true ∧
    (does 0x5054#16 0xFFFFFFFD#64 (withIrq 0#32 0x42#32 State.reset)).map (·.dev.irqOut) = some false := by decide

/-- Rows of the acknowledge table of 2.3. -/
theorem test_wrIrqSta : ([(0x00#32, 0x02#64, 0x02#32), (0x00#32, 0x3F#64, 0x3F#32), (0x00#32, 0x40#64, 0x00#32),
    (0x00#32, 0xFFFFFFFF#64, 0x3F#32), (0x42#32, 0x02#64, 0x00#32), (0x42#32, 0x42#64, 0x00#32),
    (0x42#32, 0x01#64, 0x43#32), (0x43#32, 0x03#64, 0x00#32), (0x43#32, 0x02#64, 0x41#32), (0x42#32, 0x40#64, 0x42#32),
    (0x42#32, 0x3F#64, 0x7D#32), (0x7D#32, 0x3D#64, 0x00#32), (0x3F#32, 0x3F#64, 0x00#32)] : List (Word × DWord × Word)).all
      (fun r => ackStatus r.1 (busValue .w4 r.2.1) == r.2.2) = true := by decide

theorem test_wrIrqSta_line : (does 0x5058#16 0x01#64 (withIrq 0x2#32 0x42#32 State.reset)).map (·.dev.irqOut) = some true ∧
    (does 0x5058#16 0x02#64 (withIrq 0x2#32 0x42#32 State.reset)).map (·.dev.irqOut) = some false := by decide

/-! ## RESET (2.6) and the engine (2.5) -/

theorem test_reset :
    (does 0x8000#16 0#64 { withIrq 0x2#32 0x42#32 readyP1 with dev := { (withIrq 0x2#32 0x42#32 readyP1).dev with irqOut := true } }).map
      (fun t => (t.dev, t.mem)) = some (Device.reset, memP1) := by decide

/-- Program P1, step 7: four chunks of 4 bytes, all to the same destination; status 0x42 and the line asserted. The first
two accesses are the MemRead and the MemWrite of 2.5, with the bytes 01 02 03 04. -/
theorem test_transfer_P1 : (does 0x5000#16 0x1#64 readyP1).map
    (fun t => (t.mem, t.port.length, t.port.take 2, t.dev.bank.irqSta, t.dev.irqOut)) =
    some (memP1.take 4 ++ [(0x80000000, 1#8), (0x80000001, 2#8), (0x80000002, 3#8), (0x80000003, 4#8), (0x80000004, 0#8)],
      8, [.memRead 0x70000010#64 [1#8, 2#8, 3#8, 4#8], .memWrite 0x80000000#64 [1#8, 2#8, 3#8, 4#8]], 0x42#32, true) := by
  decide

/-- Destination = source + 1, n = 4, c = 2: A0 A1 A2 A3 becomes A0 A0 A0 A3. -/
theorem test_transfer_overlap :
    (does 0x5000#16 0x1#64 { withBank (bankTo 0x70000011#64 2#32) State.reset with
      mem := [(0x70000010, 0xA0#8), (0x70000011, 0xA1#8), (0x70000012, 0xA2#8), (0x70000013, 0xA3#8)] }).map (·.mem) =
    some [(0x70000010, 0xA0#8), (0x70000011, 0xA0#8), (0x70000012, 0xA0#8), (0x70000013, 0xA3#8)] := by decide

/-- A first chunk that passes 2^64 is refused; one that ends at 2^64 is admitted. -/
theorem test_transfer_top :
    refusalOf (step (pends 0x5000#16 0x1#64 (withBank (bankTo 0xFFFFFFFFFFFFFFFE#64 4#32) State.reset))) =
      some (.chunkCrossesTop 0xFFFFFFFFFFFFFFFE#64 4) ∧
    (does 0x5000#16 0x1#64 (withBank (bankTo 0xFFFFFFFFFFFFFFFC#64 4#32) State.reset)).isSome = true ∧
    (does 0x5000#16 0x1#64 (withBank (bankTo 0xFFFFFFFFFFFFFFFE#64 2#32) State.reset)).map (·.port.length) = some 4 := by
  decide

/-- A zero chunk under `hang`: START stored, halted, no status, no access; and then no step, a reset's included. -/
theorem test_zeroChunk_hang :
    (match faultOf (step (pends 0x5000#16 0x1#64 (withBank bankZero State.reset))) with
      | some (.zeroChunkHang u) => some (u.dev, u.port, faultOf (step (pends 0x8000#16 0#64 u)))
      | _ => none) =
    some ({ bank := { bankZero with start := 1#32 }, irqOut := false, halted := some .zeroChunkHang }, [],
      some (.stuck .zeroChunkHang)) := by decide

/-- A zero chunk under `reject` and under `clamp1`. -/
theorem test_zeroChunk_reject_clamp1 :
    (does 0x5000#16 0x1#64 (withBank bankZero (built .reject .refuse))).map (fun t => (t.log, t.dev.bank.irqSta)) =
      some ([.zeroChunkRejected 0x1#32 0x100#32], 0#32) ∧
    (does 0x5000#16 0x1#64 (withBank bankZero (built .clamp1 .refuse))).map
      (fun t => (t.port.length, t.dev.bank.irqSta, t.dev.irqOut)) = some (32, 0x42#32, true) := by decide

/-- Chunk sequences of 2.5. -/
theorem test_chunkSizes : chunkSizes 16 4 = [4, 4, 4, 4] ∧ chunkSizes 10 4 = [4, 4, 2] ∧ chunkSizes 1 255 = [1] ∧
    chunkSizes 256 255 = [255, 1] ∧ chunkSizes 3 8 = [3] ∧ chunkCount 16384 255 = 65 ∧ chunkCount 65536 255 = 258 ∧
    chunkCount (2 ^ 32) 255 = 16843010 := by decide

/-- BASE + SRC_ADDR wraps modulo 2^64 (decision D5). -/
theorem test_srcAbs : srcAbs { Config.defaultParams with base := 0xFFFFFFFFFFFFFF00#64 }
      { Bank.reset with srcAddr := 0x100#32 } = 0#64 ∧
    srcAbs Config.defaultParams { Bank.reset with srcAddr := 0xFFFFFFFF#32 } = 0x16FFFFFFF#64 := by decide

/-- Another agent's store in a step of its own. -/
theorem test_agentStore :
    (nextOf (step { State.reset with inputs := [.agentStore 0x10#64 0xAB#8] })).map (fun t => (t.mem, t.dev)) =
      some ([(0x10, 0xAB#8)], Device.reset) := by decide

/-! ## Witnesses: for every statement with hypotheses, concrete states and operands that meet them together -/

/-- A transaction written out, and a state in which it is pending. -/
def txn (d : BitVec 16) (x : DWord) : Txn := ⟨d, x⟩

theorem pending_pends (d : BitVec 16) (x : DWord) (s : State) (h : s.dev.halted = none) :
    Pending (pends d x s) (txn d x) s.inputs := ⟨h, rfl⟩

/-- A well-formed instruction of every row. -/
theorem witness_DecodeOfEncodeIsTheInstruction :
    ([.reset, .reserved 0x7FFF#15, .narrowRefuse .w1 0x000#12 .read, .narrowRefuse .w2 0xFFF#12 (.write 1#64),
      .rdStart .w4, .rdControls .w8, .rdSrcAddr .w4, .rdLen .w8, .rdDstAddrW4, .rdDstAddrW8, .rdDstAddrHi .w4,
      .rdSettings .w8, .rdIrqEn .w4, .rdIrqSta .w8, .rdUndefined 0xFFF#12 .w4] : List Instr).all (wellFormed .refuse) =
      true ∧
    ([.rdDstAddrNarrow .w1, .wrStart .w1 1#64, .wrControls .w2 1#64, .wrSrcAddr .w4 1#64, .wrLen .w8 1#64,
      .wrDstAddrW4 1#64, .wrDstAddrW8 1#64, .wrDstAddrNarrow .w2 1#64, .wrDstAddrHi .w1 1#64, .wrSettings .w2 1#64,
      .wrIrqEn .w4 1#64, .wrIrqSta .w8 1#64, .wrUndefined 0x001#12 .w1 1#64] : List Instr).all (wellFormed .literal) =
      true := by decide

theorem witness_OpcodeRowsOfOnePriorityDoNotOverlap :
    let r : OpcodeRow := ⟨"RD.DST_ADDR.W4", 0x4010#16, 0xFFFF#16, 4, none⟩
    let q : OpcodeRow := ⟨"RD.DST_ADDR.NARROW", 0x0010#16, 0xDFFF#16, 4, some .literal⟩
    r ∈ opcodeTable ∧ q ∈ opcodeTable ∧ r ≠ q ∧ r.priority = q.priority := by decide

theorem witness_StepRunsTheDecodedTransaction :
    Pending (pends 0x5000#16 1#64 State.reset) (txn 0x5000#16 1#64) [] := pending_pends _ _ _ rfl

theorem witness_HaltedDeviceTakesNoStep :
    (pends 0x8000#16 0#64 (State.reset.halt .zeroChunkHang)).dev.halted = some .zeroChunkHang := by decide

theorem witness_BetweenTransactionsOnlyAgentsAct : State.reset.dev.halted = none ∧ State.reset.inputs = [] ∧
    ({ State.reset with inputs := [.agentStore 0xFFFFFFFFFFFFFFFF#64 1#8] } : State).inputs =
      .agentStore 0xFFFFFFFFFFFFFFFF#64 1#8 :: [] := by decide

/-- Undefined offsets just past a defined one, just past the last one, and at the end of the window. -/
theorem witness_ReadAtAnUndefinedOffset : ∀ d ∈ [0x4001#16, 0x401C#16, 0x605C#16, 0x4FFF#16],
    Pending (pends d 0#64 State.reset) (txn d 0#64) [] ∧ (txn d 0#64).isRead = true ∧
    WidthAdmitted (pends d 0#64 State.reset) (txn d 0#64) ∧ offsetField d ∉
      [0x000#12, 0x004#12, 0x008#12, 0x00C#12, 0x010#12, 0x014#12, 0x018#12, 0x054#12, 0x058#12] := by
  intro d hd
  simp only [List.mem_cons, List.not_mem_nil, or_false] at hd
  rcases hd with rfl | rfl | rfl | rfl <;>
    exact ⟨pending_pends _ _ _ rfl, by decide, fun h => absurd h (by decide), by decide⟩

theorem witness_ReadTransactionChangesNoDeviceState :
    Pending (pends 0x4058#16 0#64 readyP1) (txn 0x4058#16 0#64) [] ∧ (txn 0x4058#16 0#64).isRead = true ∧
    (∃ u, step (pends 0x4058#16 0#64 readyP1) = .next u) ∧
    Pending (pends 0x401C#16 0#64 readyP1) (txn 0x401C#16 0#64) [] ∧ (txn 0x401C#16 0#64).isRead = true ∧
    ∃ u, step (pends 0x401C#16 0#64 readyP1) = .next u :=
  ⟨⟨rfl, rfl⟩, by decide, ⟨_, rfl⟩, ⟨rfl, rfl⟩, by decide, ⟨_, rfl⟩⟩

theorem witness_RepeatedReadReturnsTheSameValue :
    let s := pends 0x6004#16 0#64 (pends 0x6004#16 0#64 readyP1)
    Pending s (txn 0x6004#16 0#64) [.bus (txn 0x6004#16 0#64)] ∧ (txn 0x6004#16 0#64).isRead = true ∧
    ∃ u v, step s = .next u ∧ step u = .next v := ⟨⟨rfl, rfl⟩, by decide, _, _, rfl, rfl⟩

/-- The largest legal status, and the status after completion. -/
theorem witness_ReadOfTheStatus : StatusLegal 0x7F#32 ∧ StatusLegal 0x42#32 := by
  unfold StatusLegal
  decide

/-- The stored word of a width-8 and of a width-1 write. -/
theorem witness_PlainWritesStoreTheLowWord :
    0x12345678#32 = ((0xFFFFFFFF12345678#64).setWidth (8 * Width.w8.bytes)).setWidth 32 ∧
    0xAB#32 = ((0xFFAB#64).setWidth (8 * Width.w1.bytes)).setWidth 32 := by decide

theorem witness_IrqEnWriteStoresAndRecomputes :
    0xFFFFFFFD#32 = ((0x1FFFFFFFD#64).setWidth (8 * Width.w4.bytes)).setWidth 32 := by decide

/-- A status that the collapse catches, and one that it leaves. -/
theorem witness_IrqStaWriteTogglesAndCollapses :
    (0x40#32 = 0x42#32 ^^^ ((0x02#64).extractLsb' 0 6).setWidth 32 ∧
      0x00#32 = if 0x40#32 = 0x00000040#32 then 0x00000000#32 else 0x40#32) ∧
    (0x43#32 = 0x42#32 ^^^ ((0x01#64).extractLsb' 0 6).setWidth 32 ∧
      0x43#32 = if 0x43#32 = 0x00000040#32 then 0x00000000#32 else 0x43#32) := by decide

theorem witness_WriteAtAnUndefinedOffset : ∀ d ∈ [0x5001#16, 0x501C#16, 0x705C#16, 0x5FFF#16],
    Pending (pends d 1#64 State.reset) (txn d 1#64) [] ∧ (txn d 1#64).isWrite = true ∧
    WidthAdmitted (pends d 1#64 State.reset) (txn d 1#64) ∧ offsetField d ∉
      [0x000#12, 0x004#12, 0x008#12, 0x00C#12, 0x010#12, 0x014#12, 0x018#12, 0x054#12, 0x058#12] := by
  intro d hd
  simp only [List.mem_cons, List.not_mem_nil, or_false] at hd
  rcases hd with rfl | rfl | rfl | rfl <;>
    exact ⟨pending_pends _ _ _ rfl, by decide, fun h => absurd h (by decide), by decide⟩

theorem witness_OnlyMeaningfulDataBitsCount :
    (txn 0x5000#16 0x1#64).isWrite = true ∧ (txn 0x5000#16 0xABCD00000001#64).descriptor = (txn 0x5000#16 0x1#64).descriptor ∧
    (txn 0x5000#16 0x1#64).data.setWidth (8 * (txn 0x5000#16 0x1#64).width.bytes) =
      (txn 0x5000#16 0xABCD00000001#64).data.setWidth (8 * (txn 0x5000#16 0x1#64).width.bytes) := by decide

theorem witness_WriteThenReadReturnsTheWord : Width.w8.isNarrow = false ∧
    (∃ t, exec (.wrStart .w8 2#64) readyP1 = .next t) ∧ (∃ t, exec (.wrControls .w8 2#64) readyP1 = .next t) ∧
    (∃ t, exec (.wrSrcAddr .w8 2#64) readyP1 = .next t) ∧ (∃ t, exec (.wrLen .w8 2#64) readyP1 = .next t) ∧
    (∃ t, exec (.wrSettings .w8 2#64) readyP1 = .next t) ∧ (∃ t, exec (.wrIrqEn .w8 2#64) readyP1 = .next t) ∧
    (∃ t, exec (.wrDstAddrW4 2#64) readyP1 = .next t) ∧ (∃ t, exec (.wrDstAddrW8 2#64) readyP1 = .next t) ∧
    (∃ t, exec (.wrDstAddrHi .w8 2#64) readyP1 = .next t) ∧ (∃ t, exec (.wrIrqSta .w8 2#64) readyP1 = .next t) :=
  ⟨rfl, ⟨_, rfl⟩, ⟨_, rfl⟩, ⟨_, rfl⟩, ⟨_, rfl⟩, ⟨_, rfl⟩, ⟨_, rfl⟩, ⟨_, rfl⟩, ⟨_, rfl⟩, ⟨_, rfl⟩, ⟨_, rfl⟩⟩

theorem witness_RepeatedWriteLeavesTheSameState : ∃ t, exec (.wrIrqEn .w4 2#64) readyP1 = .next t := ⟨_, rfl⟩

theorem witness_DestinationHalvesInEitherOrder : ∃ t u t' u' x,
    exec (.wrDstAddrHi .w4 1#64) readyP1 = .next t ∧ exec (.wrDstAddrW4 2#64) t = .next u ∧
    exec (.wrDstAddrW4 2#64) readyP1 = .next t' ∧ exec (.wrDstAddrHi .w4 1#64) t' = .next u' ∧
    exec (.wrDstAddrW8 3#64) t = .next x := ⟨_, _, _, _, _, rfl, rfl, rfl, rfl, rfl⟩

theorem witness_StartWriteWithoutTrigger : (0xFFFFFFFFFFFFFFFE#64).getLsbD 0 = false := by decide

theorem runs_readyP1 : TransferRuns readyP1.params readyP1.dev.bank := by
  unfold TransferRuns TransferFits
  decide

theorem next_readyP1 : ∃ t, exec (.wrStart .w4 1#64) readyP1 = .next t := ⟨_, rfl⟩

/-- Program P1's transfer; one whose first chunk ends at 2^64; one with the longest chunk; one of a single byte. -/
theorem witness_TriggeredTransferCompletes : (1#64).getLsbD 0 = true ∧ TransferRuns readyP1.params readyP1.dev.bank ∧
    TransferRuns Config.defaultParams (bankTo 0xFFFFFFFFFFFFFFFC#64 4#32) ∧
    TransferRuns Config.defaultParams Bank.reset ∧
    TransferRuns Config.defaultParams { bankTo 0xFFFFFFFFFFFFFFFF#64 1#32 with len := 0#32 } := by
  unfold TransferRuns TransferFits
  decide

theorem witness_ZeroChunkFollowsThePolicy : (1#64).getLsbD 0 = true ∧ bankZero.controls.extractLsb' 0 8 = 0#8 ∧
    (built .hang .refuse).params.zeroChunk = .hang ∧ (built .reject .refuse).params.zeroChunk = .reject ∧
    (built .clamp1 .refuse).params.zeroChunk = .clamp1 ∧
    (Config.defaultBase + bankZero.srcAddr.setWidth 64).toNat + 1 ≤ 2 ^ 64 ∧
    (0xFFFFFFFFFFFFFFFF#64 : DWord).toNat + 1 ≤ 2 ^ 64 := by decide

/-- The destination one byte too high, the source one byte too high, and both ranges ending at 2^64. -/
theorem witness_ChunkPastTheTopIsRefused :
    let p : Params := { Config.defaultParams with base := 0xFFFFFFFFFFFFFF00#64 }
    let b : Bank := { bankTo 0xFFFFFFFFFFFFFFFC#64 4#32 with srcAddr := 0xFC#32 }
    1 ≤ effectiveStep p b ∧ min (effectiveStep p b) (b.len.toNat + 1) = 4 ∧
    (srcAbs p b).toNat + 4 = 2 ^ 64 ∧ b.dstAddr.toNat + 4 = 2 ^ 64 ∧
    2 ^ 64 < (srcAbs p { b with srcAddr := 0xFD#32 }).toNat + 4 ∧
    2 ^ 64 < (0xFFFFFFFFFFFFFFFD#64 : DWord).toNat + 4 := by decide

theorem witness_PortSeesTheChunkSequence : (1#64).getLsbD 0 = true ∧ TransferRuns readyP1.params readyP1.dev.bank ∧
    (∃ t, exec (.wrStart .w4 1#64) readyP1 = .next t) ∧ readyP1.dev.bank.len.toNat + 1 = 16 ∧
    effectiveStep readyP1.params readyP1.dev.bank = 4 ∧
    0x70000010#64 = readyP1.params.base + readyP1.dev.bank.srcAddr.setWidth 64 ∧
    0x80000000#64 = readyP1.dev.bank.dstAddr ∧ (chunkSizes 16 4)[3]? = some 4 :=
  ⟨by decide, runs_readyP1, next_readyP1, by decide, by decide, by decide, by decide, by decide⟩

theorem witness_MemoryFollowsTheChunkRecurrence : (1#64).getLsbD 0 = true ∧
    TransferRuns readyP1.params readyP1.dev.bank ∧ ∃ t, exec (.wrStart .w4 1#64) readyP1 = .next t :=
  ⟨by decide, runs_readyP1, next_readyP1⟩

/-- The bytes just below and just above the four that are written. -/
theorem witness_TransferWritesOnlyTheFirstChunksBytes : (1#64).getLsbD 0 = true ∧
    (∃ t, exec (.wrStart .w4 1#64) readyP1 = .next t) ∧
    ¬InRange (dstCur bankP1) (firstChunk Config.defaultParams bankP1) 0x7FFFFFFF#64 ∧
    ¬InRange (dstCur bankP1) (firstChunk Config.defaultParams bankP1) 0x80000004#64 := by
  refine ⟨by decide, next_readyP1, ?_⟩
  unfold InRange
  decide

theorem witness_DisjointTransferCopiesTheSource : (1#64).getLsbD 0 = true ∧
    TransferRuns readyP1.params readyP1.dev.bank ∧ (∃ t, exec (.wrStart .w4 1#64) readyP1 = .next t) ∧
    RangesDisjoint (srcAbs readyP1.params readyP1.dev.bank) (dstCur readyP1.dev.bank)
      (firstChunk readyP1.params readyP1.dev.bank) ∧ 3 < firstChunk readyP1.params readyP1.dev.bank := by
  refine ⟨by decide, runs_readyP1, next_readyP1, ?_⟩
  unfold RangesDisjoint
  decide

/-- CONTROLS[31:8] differ; the three outcomes are each reached. -/
theorem witness_UninterpretedBitsDoNotChangeATransfer :
    (0xFFFFFF04#32).extractLsb' 0 8 = bankP1.controls.extractLsb' 0 8 ∧ (1#64).getLsbD 0 = true ∧
    (0xFFFFFFFF#64).getLsbD 0 = true ∧ (∃ t, exec (.wrStart .w4 1#64) readyP1 = .next t) ∧
    (∃ r, exec (.wrStart .w4 1#64) (withBank (bankTo 0xFFFFFFFFFFFFFFFE#64 4#32) State.reset) = .refused r) ∧
    ∃ u, exec (.wrStart .w4 1#64) (withBank bankZero State.reset) = .fault (.zeroChunkHang u) :=
  ⟨by decide, by decide, by decide, next_readyP1, ⟨_, rfl⟩, ⟨_, rfl⟩⟩

theorem witness_LineIsAFunctionOfEnableAndPending :
    (0xFFFFFFFF#32).getLsbD 1 = (0x2#32).getLsbD 1 ∧ (0x42#32).getLsbD 6 = (0x7D#32).getLsbD 6 := by decide

/-- A START, an IRQ_EN and an IRQ_STA write, a reset, and a write that drives no line. -/
theorem witness_LineIsDrivenOnlyWhereSaid :
    ((txn 0x5000#16 1#64).writesTo 0x000#12 = true ∧ ∃ u, step (pends 0x5000#16 1#64 readyP1) = .next u) ∧
    ((txn 0x5054#16 1#64).writesTo 0x054#12 = true ∧ ∃ u, step (pends 0x5054#16 1#64 readyP1) = .next u) ∧
    ((txn 0x5058#16 1#64).writesTo 0x058#12 = true ∧ ∃ u, step (pends 0x5058#16 1#64 readyP1) = .next u) ∧
    ((txn 0x8000#16 0#64).isReset = true ∧ ∃ u, step (pends 0x8000#16 0#64 readyP1) = .next u) ∧
    ((txn 0x5004#16 1#64).writesTo 0x000#12 = false ∧ (txn 0x5004#16 1#64).writesTo 0x054#12 = false ∧
      (txn 0x5004#16 1#64).writesTo 0x058#12 = false ∧ (txn 0x5004#16 1#64).isReset = false ∧
      ∃ u, step (pends 0x5004#16 1#64 readyP1) = .next u) :=
  ⟨⟨by decide, _, rfl⟩, ⟨by decide, _, rfl⟩, ⟨by decide, _, rfl⟩, ⟨by decide, _, rfl⟩,
    ⟨by decide, by decide, by decide, by decide, _, rfl⟩⟩

theorem witness_MaskingKeepsTheStatus : (0xFFFFFFFD#64).getLsbD 1 = false ∧ (0x2#64).getLsbD 1 = true ∧
    (1#64).getLsbD 0 = true ∧ TransferRuns readyP1.params readyP1.dev.bank ∧
    (∃ t, exec (.wrIrqSta .w4 0x42#64) (withIrq 0x2#32 0x42#32 readyP1) = .next t ∧
      t.dev.bank.irqSta.getLsbD 6 = false) := ⟨by decide, by decide, by decide, runs_readyP1, _, rfl, by decide⟩

/-- A status after completion, the largest legal status, and 0. -/
theorem witness_WritingBackTheReadStatusClearsIt :
    StatusLegal 0x42#32 ∧ StatusLegal 0x7F#32 ∧ StatusLegal 0#32 ∧
    ∃ t u, exec (.rdIrqSta .w4) (withIrq 0x2#32 0x42#32 readyP1) = .next t ∧ t.response = some 0x42#64 ∧
      exec (.wrIrqSta .w4 0x42#64) t = .next u := by
  refine ⟨?_, ?_, ?_, _, _, rfl, by decide, rfl⟩ <;> unfold StatusLegal <;> decide

/-- PENDING rises by a trigger; it falls by an acknowledge and by a reset. -/
theorem witness_PendingRisesByCompletionFallsByAcknowledge :
    (∃ u, step (pends 0x5000#16 1#64 readyP1) = .next u ∧ readyP1.dev.bank.irqSta.getLsbD 6 = false ∧
      u.dev.bank.irqSta.getLsbD 6 = true) ∧
    (∃ u, step (pends 0x5058#16 0x42#64 (withIrq 0#32 0x42#32 readyP1)) = .next u ∧ u.dev.bank.irqSta.getLsbD 6 = false) ∧
    (∃ u, step (pends 0x8000#16 0#64 (withIrq 0#32 0x42#32 readyP1)) = .next u ∧ u.dev.bank.irqSta.getLsbD 6 = false) ∧
    (withIrq 0#32 0x42#32 readyP1).dev.bank.irqSta.getLsbD 6 = true :=
  ⟨⟨_, rfl, by decide, by decide⟩, ⟨_, rfl, by decide⟩, ⟨_, rfl, by decide⟩, by decide⟩

/-- The invariant holds where a transfer is about to run and where a zero chunk is about to hang. -/
theorem witness_StepKeepsTheInvariant :
    Inv readyP1 ∧ (∃ u, step (pends 0x5000#16 1#64 readyP1) = .next u) ∧ Inv (withBank bankZero State.reset) ∧
    ∃ u, step (pends 0x5000#16 1#64 (withBank bankZero State.reset)) = .fault (.zeroChunkHang u) := by
  have hs : StatusLegal 0#32 := by
    unfold StatusLegal
    decide
  exact ⟨⟨by decide, by decide, hs⟩, ⟨_, rfl⟩, ⟨by decide, by decide, hs⟩, ⟨_, rfl⟩⟩

theorem witness_BankChangesOnlyByWriteOrReset :
    ∃ u, step (pends 0x5000#16 1#64 readyP1) = .next u ∧ u.dev.bank ≠ readyP1.dev.bank ∧
      u.dev.bank.irqSta ≠ readyP1.dev.bank.irqSta := ⟨_, rfl, by decide, by decide⟩

/-- Memory changes by a transfer and by another agent's store; the port by a transfer. -/
theorem witness_MemoryChangesOnlyByTransferOrAgent :
    (∃ u, step (pends 0x5000#16 1#64 readyP1) = .next u ∧ u.mem ≠ readyP1.mem ∧ u.port ≠ readyP1.port) ∧
    ∃ u, step { readyP1 with inputs := [.agentStore 0#64 1#8] } = .next u ∧ u.mem ≠ readyP1.mem :=
  ⟨⟨_, rfl, by decide, by decide⟩, ⟨_, rfl, by decide⟩⟩

theorem witness_ParametersNeverChange : ∃ u, step (pends 0x8000#16 0#64 (built .reject .literal)) = .next u := ⟨_, rfl⟩

/-- A step with a transaction pending and one without. -/
theorem witness_EachTransactionAdvancesThePlace :
    (∃ u, step (pends 0x4000#16 0#64 readyP1) = .next u ∧
      Pending (pends 0x4000#16 0#64 readyP1) (txn 0x4000#16 0#64) []) ∧
    ∃ u, step readyP1 = .next u ∧ ∀ t rest, ¬Pending readyP1 t rest :=
  ⟨⟨_, rfl, rfl, rfl⟩, ⟨_, rfl, fun t rest h => by cases h.2⟩⟩

/-- An event for a Read and for a Write at an undefined offset, and one for a rejected zero chunk. -/
theorem witness_EachStepLogsAtMostOneEvent :
    (∃ u, step (pends 0x401C#16 0#64 readyP1) = .next u ∧ u.log = [.protocolViolationRead 0x01C#12 .w4]) ∧
    (∃ u, step (pends 0x5001#16 1#64 readyP1) = .next u ∧ u.log = [.protocolViolationWrite 0x001#12 .w4 1#64]) ∧
    ∃ u, step (pends 0x5000#16 1#64 (withBank bankZero (built .reject .refuse))) = .next u ∧
      u.log = [.zeroChunkRejected 1#32 0x100#32] :=
  ⟨⟨_, rfl, by decide⟩, ⟨_, rfl, by decide⟩, ⟨_, rfl, by decide⟩⟩

theorem witness_StepCompletesExactlyWhenAdmitted :
    Pending (pends 0x5000#16 1#64 readyP1) (txn 0x5000#16 1#64) [] := pending_pends _ _ _ rfl

/-- A transaction for each clause: reset, reserved, narrow, undefined read and write, no trigger, the three zero-chunk
policies' two codes, a transfer that runs and one past the top. -/
theorem witness_OutcomeFollowsThePriorityOfConditions :
    evField 0x8000#16 = true ∧ evField 0xC000#16 = true ∧ evField 0x0001#16 = false ∧
    ¬WidthAdmitted State.reset (txn 0x0001#16 0#64) ∧ WidthAdmitted State.reset (txn 0x4001#16 0#64) ∧
    undefinedOffset (offsetField 0x4001#16) = true ∧ undefinedOffset (offsetField 0x5FFF#16) = true ∧
    undefinedOffset (offsetField 0x5000#16) = false ∧ (txn 0x5000#16 2#64).isTrigger = false ∧
    (txn 0x5000#16 1#64).isTrigger = true ∧ effectiveStep (built .hang .refuse).params bankZero = 0 ∧
    effectiveStep (built .reject .refuse).params bankZero = 0 ∧ effectiveStep (built .clamp1 .refuse).params bankZero ≠ 0 ∧
    TransferFits Config.defaultParams bankP1 ∧
    ¬TransferFits Config.defaultParams (bankTo 0xFFFFFFFFFFFFFFFE#64 4#32) := by
  unfold WidthAdmitted TransferFits
  decide

theorem witness_ReservedAndNarrowTransactionsAreRefused :
    Pending (pends 0x8001#16 0#64 State.reset) (txn 0x8001#16 0#64) [] ∧ evField 0x8001#16 = true ∧
    (0x8001#16 : BitVec 16) ≠ 0x8000#16 ∧ Pending (pends 0x3FFF#16 0#64 State.reset) (txn 0x3FFF#16 0#64) [] ∧
    evField 0x3FFF#16 = false ∧ (txn 0x3FFF#16 0#64).width.isNarrow = true ∧
    State.reset.params.narrowAccess = .refuse := by
  refine ⟨⟨rfl, rfl⟩, by decide, by decide, ⟨rfl, rfl⟩, ?_⟩
  decide

theorem witness_NarrowAccessFollowsTheWidthEightRules : (built .hang .literal).params.narrowAccess = .literal ∧
    Width.w1.isNarrow = true ∧ Width.w2.isNarrow = true ∧ undefinedOffset 0x000#12 = false ∧
    undefinedOffset 0x010#12 = false ∧ undefinedOffset 0x058#12 = false := by decide

/-- The shortest transfer in the smallest chunk, and the longest in the largest. -/
theorem witness_ConfiguredTransferRunsToCompletion : State.reset.dev.halted = none ∧
    (1 ≤ 1 ∧ 1 ≤ 2 ^ 32 ∧ 1 ≤ 255) ∧
    (Config.defaultBase + (0#32 : Word).setWidth 64).toNat + min 1 1 ≤ 2 ^ 64 ∧
    (0xFFFFFFFFFFFFFFFF#64 : DWord).toNat + min 1 1 ≤ 2 ^ 64 ∧
    (1 ≤ 2 ^ 32 ∧ 2 ^ 32 ≤ 2 ^ 32 ∧ 1 ≤ 255 ∧ 255 ≤ 255) ∧
    (Config.defaultBase + (0xFFFFFFFF#32 : Word).setWidth 64).toNat + min 255 (2 ^ 32) ≤ 2 ^ 64 ∧
    (0xFFFFFFFFFFFFFF01#64 : DWord).toNat + min 255 (2 ^ 32) ≤ 2 ^ 64 := by decide

/-- The first and the last byte of the widest access; byte k holds bits [8k+7:8k] (R34). -/
theorem witness_ByteLanesRebuildTheBusValue : 0 < Width.w8.bytes ∧ 7 < Width.w8.bytes ∧
    (busLanes .w8 0x8877665544332211#64)[0]? = some 0x11#8 ∧ (busLanes .w8 0x8877665544332211#64)[7]? = some 0x88#8 := by
  decide

end Sys2Proof.Tests
end

/-! PROOFS. The family 00_scope.md: how a step runs the pending transaction, when it completes, what no step changes,
and the chunk sequence that the memory port sees. -/

namespace Sys2Proof.Machine

/-! ## The step of a pending transaction -/

/-- The step of a running device with a transaction pending, in terms of the model's own `takeTransaction`. -/
theorem step_of_pending {s : State} {t : Txn} {rest : List Input} (h : Pending s t rest) :
    step s = exec (decode s.params.narrowAccess t) (takeTransaction rest s) := by
  obtain ⟨hrun, hinputs⟩ := h
  simp only [step, hrun, hinputs]

/-- Settles O8: the step's third branch, with `takeTransaction` written out. -/
theorem stepRunsTheDecodedTransaction : Obligations.StepRunsTheDecodedTransaction :=
  fun _ _ _ h => step_of_pending h

/-- Settles O52: both halves are the literals that `State.construct` is given. -/
theorem resetStateHoldsTheResetValues : Obligations.ResetStateHoldsTheResetValues := by
  unfold Obligations.ResetStateHoldsTheResetValues
  exact ⟨rfl, rfl, rfl, rfl, rfl, rfl, rfl, rfl, rfl, rfl, rfl⟩

/-! ## What no step changes (R7, R27, R28) -/

/-- A START write that completes leaves the parameters and `halted` alone: only the hang, which is no next state,
halts the device. -/
theorem execWrStart_keeps_params_and_halted {w : Width} {value : DWord} {s t : State}
    (h : execWrStart w value s = .next t) : t.params = s.params ∧ t.dev.halted = s.dev.halted := by
  rcases execWrStart_next h with ⟨_, rfl⟩ | ⟨_, _, _, rfl⟩ | ⟨_, _, rfl⟩
  · exact ⟨rfl, rfl⟩
  · exact ⟨rfl, rfl⟩
  · obtain ⟨hdev, hparams, -⟩ := transferred_frame (effectiveStep s.params s.dev.bank) (startStored w value s)
    rw [finishStart_params, finishStart_halted, hparams, hdev]
    exact ⟨rfl, rfl⟩

/-- No completed transaction changes a parameter or `halted`. -/
theorem Did.keeps_params_and_halted {s u : State} {t : Txn} (h : Did s t u) :
    u.params = s.params ∧ u.dev.halted = s.dev.halted := by
  cases h with
  | start _ _ e => exact execWrStart_keeps_params_and_halted e
  | read _ _ e | readUndefined _ _ e | writeUndefined _ _ e | store _ _ _ _ _ _ e | irqEn _ _ e | irqSta _ _ e
  | reset _ _ e =>
    subst e
    exact ⟨rfl, rfl⟩

/-- Settles O44: an idle step and an agent's store touch neither, and no completed transaction does. -/
theorem parametersNeverChange : Obligations.ParametersNeverChange := by
  intro s u h
  obtain ⟨hrun, ⟨_, rfl⟩ | ⟨a, b, rest, _, rfl⟩ | ⟨t, rest, _, hdid⟩⟩ := step_did h
  · exact ⟨rfl, hrun, hrun⟩
  · exact ⟨rfl, hrun, hrun⟩
  · obtain ⟨hparams, hhalted⟩ := hdid.keeps_params_and_halted
    exact ⟨hparams, hrun, hhalted.trans hrun⟩

/-! ## When a transaction completes (R11, R114) -/

/-- A trigger is let through: a zero chunk is turned away by policy `reject`, or the transfer runs. It is the last
condition of `Completes`. -/
def TriggerAdmitted (p : Params) (b : Bank) : Prop :=
  (effectiveStep p b = 0 ∧ p.zeroChunk = .reject) ∨ TransferRuns p b

/-- What is left of `Completes` for a bus transaction of an admitted width. -/
theorem completes_bus_iff {s : State} {t : Txn} (hev : evField t.descriptor = false) (hw : WidthAdmitted s t) :
    Completes s t ↔ (t.isTrigger = true → TriggerAdmitted s.params s.dev.bank) := by
  simp [Completes, TriggerAdmitted, hev, hw]

/-- A transaction that is no Write triggers nothing. -/
theorem isTrigger_of_not_write {t : Txn} (h : t.isWrite = false) : t.isTrigger = false := by
  simp [Txn.isTrigger, writesTo_of_not_write h]

/-- A Write triggers by its offset and by bit 0 of its data word (R85). -/
theorem isTrigger_of_write {t : Txn} (h : t.isWrite = true) :
    t.isTrigger = (offsetField t.descriptor == Config.offStart && t.data.getLsbD 0) := by
  rw [Txn.isTrigger, writesTo_eq h]

/-- A bus Read is no non-bus event (R57). -/
theorem not_event_of_read {t : Txn} (h : t.isRead = true) : evField t.descriptor = false := by
  simp only [Txn.isRead, Bool.and_eq_true, Bool.not_eq_true'] at h
  exact h.1

/-- A bus Write is no non-bus event (R57). -/
theorem not_event_of_write {t : Txn} (h : t.isWrite = true) : evField t.descriptor = false := by
  simp only [Txn.isWrite, Bool.and_eq_true, Bool.not_eq_true'] at h
  exact h.1

/-- Every decoded Read completes (R71, R82). -/
theorem exec_decodeRead_completes (off : Offset) (w : Width) (s : State) :
    ∃ u, exec (decodeRead off w) s = .next u := by
  rcases decodeRead_cases off w with ⟨hr, _⟩ | ⟨hr, _⟩
  · obtain ⟨v, hv⟩ := exec_reads hr s
    exact ⟨_, hv⟩
  · rw [hr]
    exact ⟨_, rfl⟩

/-- Every decoded Write other than one of START completes (R84, R95). -/
theorem exec_decodeWrite_completes {off : Offset} (h : off ≠ Config.offStart) (w : Width) (value : DWord) (s : State) :
    ∃ u, exec (decodeWrite off w value) s = .next u := by
  rcases decodeWrite_cases off w value with ⟨ho, _⟩ | ⟨_, hw⟩ | ⟨_, hw⟩ | ⟨_, hw⟩ | ⟨_, _, _, _, hw⟩
  · exact absurd ho h
  · rw [hw]
    exact ⟨_, rfl⟩
  · rw [hw]
    exact ⟨_, rfl⟩
  · rw [hw]
    exact ⟨_, rfl⟩
  · obtain ⟨b, hb, -⟩ := exec_stores hw s
    exact ⟨_, hb⟩

/-- A triggering START write whose transfer runs leaves the transferred state with the line recomputed (R85, R100). -/
theorem execWrStart_of_runs {w : Width} {value : DWord} {s : State} (hv : value.getLsbD 0 = true)
    (hruns : TransferRuns s.params s.dev.bank) :
    execWrStart w value s =
      .next (finishStart (transferred (effectiveStep s.params s.dev.bank) (startStored w value s))) := by
  obtain ⟨hstep, hfits⟩ := hruns
  rcases execWrStart_cases w hv s with ⟨h0, _⟩ | ⟨h0, _⟩ | ⟨_, hn, _⟩ | ⟨_, h⟩
  · omega
  · omega
  · exact absurd hfits hn
  · exact h

/-- A START write completes exactly when it does not trigger or its trigger is let through (R85, R99, R44). -/
theorem execWrStart_completes_iff (w : Width) (value : DWord) (s : State) :
    (∃ u, execWrStart w value s = .next u) ↔
      (value.getLsbD 0 = true → TriggerAdmitted s.params s.dev.bank) := by
  constructor
  · rintro ⟨u, hu⟩ hv
    rcases execWrStart_next hu with ⟨hv', _⟩ | ⟨_, h0, hreject, _⟩ | ⟨_, hruns, _⟩
    · rw [hv] at hv'
      cases hv'
    · exact .inl ⟨h0, hreject⟩
    · exact .inr hruns
  · intro h
    cases hv : value.getLsbD 0 with
    | false => exact ⟨_, by rw [execWrStart_eq, hv]; rfl⟩
    | true =>
      rcases h hv with ⟨h0, hreject⟩ | hruns
      · rcases execWrStart_cases w hv s with ⟨_, hhang, _⟩ | ⟨_, _, hnext⟩ | ⟨hstep, _⟩ | ⟨⟨hstep, _⟩, _⟩
        · rw [hreject] at hhang
          cases hhang
        · exact ⟨_, hnext⟩
        · omega
        · omega
      · exact ⟨_, execWrStart_of_runs hv hruns⟩

/-- The meaning of the decoded transaction answers a next state exactly when `Completes` says so: by the five kinds of
transaction. -/
theorem exec_decode_completes_iff (s : State) (t : Txn) :
    (∃ u, exec (decode s.params.narrowAccess t) s = .next u) ↔ Completes s t := by
  rcases decode_cases s.params.narrowAccess t with
    ⟨hev, hreset, hd⟩ | ⟨hev, hreset, r, hd, _⟩ | ⟨hev, hnarrow, hp, hd⟩ | ⟨hread, hw, hd⟩ | ⟨hwrite, hw, hd⟩ <;>
    rw [hd]
  · have hc : Completes s t := by
      simp [Completes, hev, hreset, isTrigger_of_not_write (not_write_of_event hev)]
    exact iff_of_true ⟨_, rfl⟩ hc
  · have hc : ¬Completes s t := by simp [Completes, hev, hreset]
    exact iff_of_false (fun ⟨_, h⟩ => nomatch h) hc
  · have hc : ¬Completes s t := by simp [Completes, WidthAdmitted, hev, hnarrow, hp]
    exact iff_of_false (fun ⟨_, h⟩ => nomatch h) hc
  · have hc : Completes s t := by
      simp [completes_bus_iff (not_event_of_read hread) hw, isTrigger_of_not_write (not_write_of_read hread)]
    exact iff_of_true (exec_decodeRead_completes _ _ s) hc
  · rw [completes_bus_iff (not_event_of_write hwrite) hw, isTrigger_of_write hwrite]
    by_cases hoff : offsetField t.descriptor = Config.offStart
    · rw [hoff, decodeWrite_offStart, beq_self_eq_true, Bool.true_and]
      exact execWrStart_completes_iff t.width t.data s
    · exact iff_of_true (exec_decodeWrite_completes hoff _ _ s) (by simp [hoff])

/-- Settles O47: taking the transaction changes nothing that `Completes` reads. -/
theorem stepCompletesExactlyWhenAdmitted : Obligations.StepCompletesExactlyWhenAdmitted := by
  intro s t rest h
  rw [step_of_pending h]
  exact exec_decode_completes_iff (takeTransaction rest s) t

/-! ## The chunk sequence (R101) -/

/-- There are ceil(n/s) chunks. -/
theorem chunkSizes_length {n s : Nat} (hn : 1 ≤ n) (hs : 1 ≤ s) : (chunkSizes n s).length = chunkCount n s := by
  have := chunkCount_pos hn hs
  simp only [chunkSizes, List.length_append, List.length_replicate, List.length_singleton]
  omega

/-- The chunks add up to n, and none is empty: chunk by chunk, as the copy loop lowers `remaining`. -/
theorem chunkSizes_sum_and_pos {s : Nat} (hs : 1 ≤ s) :
    ∀ n : Nat, 1 ≤ n → (chunkSizes n s).sum = n ∧ ∀ k ∈ chunkSizes n s, 1 ≤ k := by
  intro n
  induction n using Nat.strong_induction_on with
  | _ n ih =>
    intro hn
    by_cases h : n ≤ s
    · rw [chunkSizes_last hn h]
      simpa using hn
    · obtain ⟨hsum, hpos⟩ := ih (n - s) (by omega) (by omega)
      rw [chunkSizes_step hs (by omega), List.sum_cons, hsum, List.forall_mem_cons]
      exact ⟨by omega, hs, hpos⟩

/-- Settles O30: the port trace of the chunks (`copyChunks_port`) with the sizes of R101. -/
theorem portSeesTheChunkSequence : Obligations.PortSeesTheChunkSequence := by
  rintro s t w value n step src dst hv hruns hexec rfl rfl rfl rfl
  have hs : 1 ≤ effectiveStep s.params s.dev.bank := hruns.1
  have h255 := effectiveStep_le s.params s.dev.bank
  have hn : 1 ≤ s.dev.bank.len.toNat + 1 := Nat.le_add_left 1 _
  have hle := chunkSizes_le _ hs _ hn
  obtain ⟨hsum, hpos⟩ := chunkSizes_sum_and_pos hs _ hn
  obtain rfl := Host.Outcome.next.inj ((execWrStart_of_runs hv hruns).symm.trans hexec)
  obtain ⟨bufs, hport, hsizes, hbytes⟩ := copyChunks_port (srcAbs s.params s.dev.bank) (dstCur s.dev.bank)
    (chunkSizes (s.dev.bank.len.toNat + 1) (effectiveStep s.params s.dev.bank))
    (fun k hk => by have := hle k hk; omega) (startStored w value s)
  refine ⟨bufs, hport, hsizes, ?_, by rw [hsizes, hsum], fun b hb => ?_, hbytes⟩
  · rw [← List.length_map List.length, hsizes, chunkSizes_length hn hs, chunkCount]
  · have hk : b.length ∈ chunkSizes (s.dev.bank.len.toNat + 1) (effectiveStep s.params s.dev.bank) :=
      hsizes ▸ List.mem_map_of_mem hb
    have h1 := hpos _ hk
    have h2 := hle _ hk
    omega

end Sys2Proof.Machine

/-! PROOFS. The family 10_state.md: the invariant of the state, and which steps change each part of the state. -/

namespace Sys2Proof.Machine

/-! ## The status (R24, R25, R94, R103) -/

/-- The reset value of IRQ_STA is legal. -/
theorem statusLegal_zero : StatusLegal 0#32 := ⟨by decide, by decide⟩

/-- A completed transfer leaves a legal status: DONE is set beside PENDING. -/
theorem completeStatus_legal {sta : Word} (h : StatusLegal sta) : StatusLegal (completeStatus sta) := by
  obtain ⟨htop, -⟩ := h
  constructor
  · rw [completeStatus, BitVec.extractLsb'_or, htop]
    decide
  · intro he
    have hdone : (completeStatus sta).getLsbD 1 = true := by simp [completeStatus, Config.completionMask]
    rw [he] at hdone
    exact absurd hdone (by decide)

/-- An acknowledge toggles none of bits 31:7. -/
theorem toggleStatus_top (sta : Word) (value : DWord) :
    (toggleStatus sta value).extractLsb' 7 25 = sta.extractLsb' 7 25 := by
  have hmask : ((value.extractLsb' 0 6).setWidth 32).extractLsb' 7 25 = 0#25 := by
    apply BitVec.eq_of_getLsbD_eq
    intro i hi
    simp only [BitVec.getLsbD_extractLsb', BitVec.getLsbD_setWidth, BitVec.getLsbD_zero,
      decide_eq_false (show ¬7 + i < 6 by omega), Bool.false_and, Bool.and_false]
  rw [toggleStatus, BitVec.extractLsb'_xor, hmask, BitVec.xor_zero]

/-- An acknowledge does not toggle PENDING. -/
theorem toggleStatus_pending (sta : Word) (value : DWord) :
    (toggleStatus sta value).getLsbD 6 = sta.getLsbD 6 := by
  simp [toggleStatus]

/-- An acknowledge leaves a legal status: the collapse takes the one illegal value away. -/
theorem ackStatus_legal {sta : Word} (h : StatusLegal sta) (value : DWord) : StatusLegal (ackStatus sta value) := by
  rw [ackStatus, collapse]
  split
  · exact statusLegal_zero
  · rename_i hne
    exact ⟨(toggleStatus_top sta value).trans h.1, hne⟩

/-- An acknowledge changes PENDING only by the collapse, which leaves 0. -/
theorem ackStatus_zero_or_same_pending (sta : Word) (value : DWord) :
    ackStatus sta value = 0#32 ∨ (ackStatus sta value).getLsbD 6 = sta.getLsbD 6 := by
  rw [ackStatus, collapse]
  split
  · exact .inl rfl
  · exact .inr (toggleStatus_pending sta value)

/-! ## A step by its transaction -/

/-- What the pending transaction did, when the step answers a next state. -/
theorem did_of_pending {s u : State} {t : Txn} {rest : List Input} (hp : Pending s t rest) (h : step s = .next u) :
    Did (takeTransaction rest s) t u :=
  did_of_next ((step_of_pending hp).symm.trans h)

/-- Only a transaction changes the device state. -/
theorem step_same_dev_or_did {s u : State} (h : step s = .next u) :
    u.dev = s.dev ∨ ∃ t rest, Pending s t rest ∧ Did (takeTransaction rest s) t u := by
  obtain ⟨-, ⟨_, rfl⟩ | ⟨a, b, rest, _, rfl⟩ | hdid⟩ := step_did h
  · exact .inl rfl
  · exact .inl rfl
  · exact .inr hdid

/-- A completed START write either moves nothing and leaves memory, the port and every register but START as they were,
or it is a trigger whose transfer runs (R85, R99). -/
theorem start_moves_nothing_or_transfers {s u : State} {t : Txn} (hw : t.isWrite = true)
    (hoff : offsetField t.descriptor = 0x000#12) (h : execWrStart t.width t.data s = .next u) :
    (u.mem = s.mem ∧ u.port = s.port ∧ u.dev.bank = (startStored t.width t.data s).dev.bank) ∨
    (t.isTrigger = true ∧ TransferRuns s.params s.dev.bank ∧
      u = finishStart (transferred (effectiveStep s.params s.dev.bank) (startStored t.width t.data s))) := by
  rcases execWrStart_next h with ⟨_, rfl⟩ | ⟨_, _, _, rfl⟩ | ⟨hv, hruns, hu⟩
  · exact .inl ⟨rfl, rfl, rfl⟩
  · exact .inl ⟨rfl, rfl, rfl⟩
  · refine .inr ⟨?_, hruns, hu⟩
    rw [isTrigger_of_write hw, hoff, hv]
    rfl

/-! ## The invariant (R25, R26, R31) -/

/-- The reset bank does not assert the line (R31). -/
theorem lineFn_reset : lineFn Bank.reset = false := by decide

/-- Settles O40: nothing is written to memory, the line is deasserted and IRQ_STA is 0. -/
theorem invariantHoldsAtReset : Obligations.InvariantHoldsAtReset := by
  have hconstruct (p : Params) : Inv (State.construct p) :=
    ⟨⟨List.Pairwise.nil, by simp [State.construct]⟩, lineFn_reset.symm, statusLegal_zero⟩
  exact ⟨hconstruct, hconstruct Config.defaultParams⟩

/-- The line follows from IRQ_EN and IRQ_STA alone (R118). -/
theorem lineFn_congr {b c : Bank} (hen : b.irqEn = c.irqEn) (hsta : b.irqSta = c.irqSta) : lineFn b = lineFn c := by
  rw [lineFn, lineFn, hen, hsta]

/-- The invariant is about memory, the line, IRQ_EN and IRQ_STA: a state that agrees on these has it too. -/
theorem Inv.congr {s u : State} (h : Inv s) (hmem : u.mem = s.mem) (hline : u.dev.irqOut = s.dev.irqOut)
    (hen : u.dev.bank.irqEn = s.dev.bank.irqEn) (hsta : u.dev.bank.irqSta = s.dev.bank.irqSta) : Inv u where
  memory := hmem ▸ h.memory
  line := by rw [hline, h.line, lineFn_congr hen hsta]
  status := hsta ▸ h.status

/-- A recompute establishes the line's clause, whatever the level was (R119). -/
theorem inv_recompute_respond {s : State} (hmem : Memory.wf s.mem) (hsta : StatusLegal s.dev.bank.irqSta)
    (v : Option DWord) : Inv ((recompute s).respond v) :=
  ⟨hmem, rfl, hsta⟩

/-- A START write ends in a recompute (R85). -/
theorem inv_finishStart {s : State} (hmem : Memory.wf s.mem) (hsta : StatusLegal s.dev.bank.irqSta) :
    Inv (finishStart s) :=
  inv_recompute_respond hmem hsta none

/-- A transfer keeps memory's canonical form and a legal status; the line waits for the end of the write. -/
theorem transferred_keeps_memory_and_status {s : State} (h : Inv s) (step : Nat) :
    Memory.wf (transferred step s).mem ∧ StatusLegal (transferred step s).dev.bank.irqSta := by
  obtain ⟨hdev, -, -, -, -, -, hmem⟩ := transferred_frame step s
  refine ⟨hmem h.memory, ?_⟩
  rw [hdev]
  exact completeStatus_legal h.status

theorem inv_startStored {s : State} (h : Inv s) (w : Width) (value : DWord) : Inv (startStored w value s) :=
  h.congr rfl rfl rfl rfl

/-- A completed START write keeps the invariant. -/
theorem execWrStart_keeps_inv {w : Width} {value : DWord} {s u : State} (h : Inv s)
    (he : execWrStart w value s = .next u) : Inv u := by
  have hstored := inv_startStored h w value
  rcases execWrStart_next he with ⟨_, rfl⟩ | ⟨_, _, _, rfl⟩ | ⟨_, _, rfl⟩
  · exact inv_finishStart hstored.memory hstored.status
  · exact inv_finishStart hstored.memory hstored.status
  · obtain ⟨hmem, hsta⟩ := transferred_keeps_memory_and_status hstored _
    exact inv_finishStart hmem hsta

/-- A completed transaction keeps the invariant. -/
theorem Did.keeps_inv {s u : State} {t : Txn} (hdid : Did s t u) (h : Inv s) : Inv u := by
  cases hdid with
  | read _ _ e | readUndefined _ _ e | writeUndefined _ _ e =>
    subst e
    exact h.congr rfl rfl rfl rfl
  | store _ _ _ _ _ b e _ hen hsta =>
    subst e
    exact h.congr rfl rfl hen hsta
  | irqEn _ _ e =>
    subst e
    refine inv_recompute_respond ?_ ?_ none
    · exact h.memory
    · exact h.status
  | irqSta _ _ e =>
    subst e
    refine inv_recompute_respond ?_ ?_ none
    · exact h.memory
    · exact ackStatus_legal h.status _
  | reset _ _ e =>
    subst e
    exact ⟨h.memory, lineFn_reset.symm, statusLegal_zero⟩
  | start _ _ e => exact execWrStart_keeps_inv h e

/-- The only fault of an instruction is the zero-chunk hang of a START write, which leaves START written and the device
halted, and nothing else changed (R113). -/
theorem exec_fault {i : Instr} {s : State} {r : Fault} (h : exec i s = .fault r) :
    ∃ w value, r = .zeroChunkHang ((startStored w value s).halt .zeroChunkHang) := by
  cases i with
  | wrStart w value =>
    refine ⟨w, value, ?_⟩
    change execWrStart w value s = .fault r at h
    cases hv : value.getLsbD 0 with
    | false =>
      rw [execWrStart_eq, hv] at h
      cases h
    | true =>
      rcases execWrStart_cases w hv s with ⟨_, _, hhang⟩ | ⟨_, _, hnext⟩ | ⟨_, _, hrefused⟩ | ⟨_, hnext⟩
      · exact (Host.Outcome.fault.inj (hhang.symm.trans h)).symm
      · cases hnext.symm.trans h
      · cases hrefused.symm.trans h
      · cases hnext.symm.trans h
  | _ => cases h

/-- The state a zero-chunk hang leaves is that of a START write whose Run has halted the device (R113). -/
theorem step_hang {s u : State} (h : step s = .fault (.zeroChunkHang u)) :
    ∃ w value rest, u = (startStored w value (takeTransaction rest s)).halt .zeroChunkHang := by
  unfold step at h
  split at h
  · cases h
  · split at h
    · cases h
    · cases h
    · obtain ⟨w, value, he⟩ := exec_fault h
      exact ⟨w, value, _, Fault.zeroChunkHang.inj he⟩

/-- Settles O41: by what the step did. The hang writes START and `halted`, of which the invariant says nothing. -/
theorem stepKeepsTheInvariant : Obligations.StepKeepsTheInvariant := by
  intro s h
  constructor
  · intro u hu
    obtain ⟨-, ⟨_, rfl⟩ | ⟨a, b, rest, _, rfl⟩ | ⟨t, rest, _, hdid⟩⟩ := step_did hu
    · exact h
    · exact ⟨writeByte_wf h.memory a b, h.line, h.status⟩
    · exact hdid.keeps_inv (h.congr rfl rfl rfl rfl)
  · intro u hu
    obtain ⟨w, value, rest, rfl⟩ := step_hang hu
    exact h.congr rfl rfl rfl rfl

/-- Settles O9: `step` asks whether the device is halted before it looks at the inputs. -/
theorem haltedDeviceTakesNoStep : Obligations.HaltedDeviceTakesNoStep := by
  intro s r hhalted
  simp only [step, hhalted]

/-! ## What a Read leaves unchanged (R32) -/

/-- A Read that completes hands a value back, and at an undefined offset, and only there, logs its event (R71, R82). -/
theorem step_next_of_read {s u : State} {t : Txn} {rest : List Input} (hp : Pending s t rest) (hread : t.isRead = true)
    (h : step s = .next u) :
    (undefinedOffset (offsetField t.descriptor) = false ∧ ∃ v, u = (takeTransaction rest s).respond (some v)) ∨
    (undefinedOffset (offsetField t.descriptor) = true ∧
      u = ((takeTransaction rest s).record
        (.protocolViolationRead (offsetField t.descriptor) t.width)).respond (some 0#64)) := by
  have hbus := not_event_of_read hread
  rw [step_of_pending hp] at h
  rcases decode_cases s.params.narrowAccess t with
    ⟨hev, _⟩ | ⟨hev, _⟩ | ⟨_, _, _, hd⟩ | ⟨_, _, hd⟩ | ⟨hwrite, _⟩
  · exact absurd (hbus.symm.trans hev) Bool.false_ne_true
  · exact absurd (hbus.symm.trans hev) Bool.false_ne_true
  · rw [hd] at h
    cases h
  · rw [hd] at h
    rcases decodeRead_cases (offsetField t.descriptor) t.width with ⟨hr, ho⟩ | ⟨hr, ho⟩
    · obtain ⟨v, hv⟩ := exec_reads hr (takeTransaction rest s)
      exact .inl ⟨ho, v, Host.Outcome.next.inj (h.symm.trans hv)⟩
    · rw [hr] at h
      exact .inr ⟨ho, (Host.Outcome.next.inj h).symm⟩
  · exact absurd ((not_write_of_read hread).symm.trans hwrite) Bool.false_ne_true

/-- Settles O15: a response and a log event are no device state. -/
theorem readTransactionChangesNoDeviceState : Obligations.ReadTransactionChangesNoDeviceState := by
  intro s u t rest hp hread h
  rcases step_next_of_read hp hread h with ⟨ho, v, rfl⟩ | ⟨ho, rfl⟩
  · exact ⟨rfl, rfl, rfl, rfl, fun _ => rfl, fun ho' => absurd (ho.symm.trans ho') Bool.false_ne_true⟩
  · exact ⟨rfl, rfl, rfl, rfl, fun ho' => absurd (ho'.symm.trans ho) Bool.false_ne_true, fun _ => rfl⟩

/-! ## Which steps change the bank (R24, R33, R122) -/

/-- A completed transaction that changes the bank is a Write or a reset. -/
theorem Did.same_bank_or_write_or_reset {s u : State} {t : Txn} (h : Did s t u) :
    u.dev.bank = s.dev.bank ∨ t.isWrite = true ∨ t.isReset = true := by
  cases h with
  | read _ _ e | readUndefined _ _ e =>
    subst e
    exact .inl rfl
  | writeUndefined hw | store hw | irqEn hw | irqSta hw | start hw => exact .inr (.inl hw)
  | reset hr => exact .inr (.inr hr)

/-- What a completed transaction makes of IRQ_STA: nothing, or completion by a trigger whose transfer runs, or an
acknowledge, or its reset value. -/
theorem Did.irqSta_cases {s u : State} {t : Txn} (h : Did s t u) :
    u.dev.bank.irqSta = s.dev.bank.irqSta ∨
    (t.isTrigger = true ∧ TransferRuns s.params s.dev.bank ∧
      u.dev.bank.irqSta = completeStatus s.dev.bank.irqSta) ∨
    (t.writesTo 0x058#12 = true ∧
      u.dev.bank.irqSta = ackStatus s.dev.bank.irqSta (busValue t.width t.data)) ∨
    (t.isReset = true ∧ u.dev.bank.irqSta = 0#32) := by
  cases h with
  | read _ _ e | readUndefined _ _ e | writeUndefined _ _ e | irqEn _ _ e =>
    subst e
    exact .inl rfl
  | store _ _ _ _ _ b e _ _ hsta =>
    subst e
    exact .inl hsta
  | irqSta hw hoff e =>
    subst e
    exact .inr (.inr (.inl ⟨by rw [writesTo_eq hw, hoff, beq_self_eq_true], rfl⟩))
  | reset hr _ e =>
    subst e
    exact .inr (.inr (.inr ⟨hr, rfl⟩))
  | start hw hoff e =>
    rcases start_moves_nothing_or_transfers hw hoff e with ⟨_, _, hbank⟩ | ⟨htrigger, hruns, rfl⟩
    · exact .inl (by rw [hbank]; rfl)
    · refine .inr (.inl ⟨htrigger, hruns, ?_⟩)
      rw [finishStart_bank, (transferred_frame _ _).1]
      rfl

/-- Settles O42: by what the transaction did to the bank, and to IRQ_STA. -/
theorem bankChangesOnlyByWriteOrReset : Obligations.BankChangesOnlyByWriteOrReset := by
  intro s u h
  obtain hdev | ⟨t, rest, hp, hdid⟩ := step_same_dev_or_did h
  · rw [hdev]
    exact ⟨fun hne => absurd rfl hne, fun hne => absurd rfl hne⟩
  · refine ⟨fun hne => ⟨t, rest, hp, hdid.same_bank_or_write_or_reset.resolve_left hne⟩,
      fun hne => ⟨t, rest, hp, ?_⟩⟩
    rcases hdid.irqSta_cases with hsame | ⟨htrigger, _⟩ | ⟨hack, _⟩ | ⟨hreset, _⟩
    · exact absurd hsame hne
    · exact .inl htrigger
    · exact .inr (.inl hack)
    · exact .inr (.inr hreset)

/-- What a step makes of PENDING: it keeps it, or completion sets it, or an acknowledge or a reset leaves the whole
status 0. -/
theorem step_pending_cases {s u : State} (h : step s = .next u) :
    u.dev.bank.irqSta.getLsbD 6 = s.dev.bank.irqSta.getLsbD 6 ∨
    (u.dev.bank.irqSta.getLsbD 6 = true ∧
      ∃ t rest, Pending s t rest ∧ t.isTrigger = true ∧ TransferRuns s.params s.dev.bank) ∨
    (u.dev.bank.irqSta = 0#32 ∧
      ∃ t rest, Pending s t rest ∧ (t.writesTo 0x058#12 = true ∨ t.isReset = true)) := by
  obtain hdev | ⟨t, rest, hp, hdid⟩ := step_same_dev_or_did h
  · exact .inl (by rw [hdev])
  rcases hdid.irqSta_cases with hsame | ⟨htrigger, hruns, hsta⟩ | ⟨hack, hsta⟩ | ⟨hreset, hsta⟩
  · exact .inl (by rw [hsame]; rfl)
  · exact .inr (.inl ⟨by simp [hsta, completeStatus, Config.completionMask], t, rest, hp, htrigger, hruns⟩)
  · rw [hsta]
    rcases ackStatus_zero_or_same_pending s.dev.bank.irqSta (busValue t.width t.data) with hzero | hsame
    · exact .inr (.inr ⟨hzero, t, rest, hp, .inl hack⟩)
    · exact .inl hsame
  · exact .inr (.inr ⟨hsta, t, rest, hp, .inr hreset⟩)

/-- Settles O39: each of the three cases of `step_pending_cases` allows one direction at most. -/
theorem pendingRisesByCompletionFallsByAcknowledge : Obligations.PendingRisesByCompletionFallsByAcknowledge := by
  intro s u h
  rcases step_pending_cases h with hsame | ⟨hset, hruns⟩ | ⟨hzero, t, rest, hp, hcause⟩
  · rw [hsame]
    exact ⟨fun h0 h1 => absurd (h0.symm.trans h1) Bool.false_ne_true,
      fun h1 h0 => absurd (h0.symm.trans h1) Bool.false_ne_true⟩
  · exact ⟨fun _ _ => hruns, fun _ h0 => absurd (h0.symm.trans hset) Bool.false_ne_true⟩
  · refine ⟨fun _ h1 => ?_, fun _ _ => ⟨t, rest, hp, hcause, hzero⟩⟩
    rw [hzero] at h1
    exact absurd h1 (by decide)

/-! ## Which steps change memory and use the port (R30, R52, R97, R104) -/

/-- A completed transaction that is no trigger with a running transfer leaves memory and the port alone. -/
theorem Did.same_mem_and_port_or_transfers {s u : State} {t : Txn} (h : Did s t u) :
    (u.mem = s.mem ∧ u.port = s.port) ∨ (t.isTrigger = true ∧ TransferRuns s.params s.dev.bank) := by
  cases h with
  | read _ _ e | readUndefined _ _ e | writeUndefined _ _ e | store _ _ _ _ _ _ e | irqEn _ _ e | irqSta _ _ e
  | reset _ _ e =>
    subst e
    exact .inl ⟨rfl, rfl⟩
  | start hw hoff e =>
    rcases start_moves_nothing_or_transfers hw hoff e with ⟨hmem, hport, _⟩ | ⟨htrigger, hruns, _⟩
    · exact .inl ⟨hmem, hport⟩
    · exact .inr ⟨htrigger, hruns⟩

/-- Settles O43: an idle step changes neither, an agent's store makes no access on the port. -/
theorem memoryChangesOnlyByTransferOrAgent : Obligations.MemoryChangesOnlyByTransferOrAgent := by
  intro s u h
  obtain ⟨-, ⟨_, rfl⟩ | ⟨a, b, rest, hinputs, rfl⟩ | ⟨t, rest, hp, hdid⟩⟩ := step_did h
  · exact ⟨fun hne => absurd rfl hne, fun hne => absurd rfl hne⟩
  · exact ⟨fun _ => .inr ⟨a, b, rest, hinputs⟩, fun hne => absurd rfl hne⟩
  · rcases hdid.same_mem_and_port_or_transfers with ⟨hmem, hport⟩ | ⟨htrigger, hruns⟩
    · exact ⟨fun hne => absurd hmem hne, fun hne => absurd hport hne⟩
    · exact ⟨fun _ => .inl ⟨t, rest, hp, htrigger, hruns⟩, fun _ => ⟨t, rest, hp, htrigger, hruns⟩⟩

/-! ## The sequence and the place in it (R15) -/

/-- A completed START write does not touch the sequence. -/
theorem execWrStart_keeps_inputs_and_place {w : Width} {value : DWord} {s u : State}
    (h : execWrStart w value s = .next u) : u.inputs = s.inputs ∧ u.place = s.place := by
  rcases execWrStart_next h with ⟨_, rfl⟩ | ⟨_, _, _, rfl⟩ | ⟨_, _, rfl⟩
  · exact ⟨rfl, rfl⟩
  · exact ⟨rfl, rfl⟩
  · obtain ⟨-, -, hinputs, hplace, -⟩ :=
      transferred_frame (effectiveStep s.params s.dev.bank) (startStored w value s)
    exact ⟨hinputs, hplace⟩

/-- Once taken, a transaction does not touch the sequence again. -/
theorem Did.keeps_inputs_and_place {s u : State} {t : Txn} (h : Did s t u) :
    u.inputs = s.inputs ∧ u.place = s.place := by
  cases h with
  | start _ _ e => exact execWrStart_keeps_inputs_and_place e
  | read _ _ e | readUndefined _ _ e | writeUndefined _ _ e | store _ _ _ _ _ _ e | irqEn _ _ e | irqSta _ _ e
  | reset _ _ e =>
    subst e
    exact ⟨rfl, rfl⟩

/-- Settles O45: `takeTransaction` advances the place, and what follows keeps it. -/
theorem eachTransactionAdvancesThePlace : Obligations.EachTransactionAdvancesThePlace := by
  intro s u h
  refine ⟨fun t rest hp => (did_of_pending hp h).keeps_inputs_and_place, fun hnone => ?_⟩
  obtain ⟨-, ⟨_, rfl⟩ | ⟨a, b, rest, _, rfl⟩ | ⟨t, rest, hp, _⟩⟩ := step_did h
  · rfl
  · rfl
  · exact absurd hp (hnone t rest)

end Sys2Proof.Machine

/-! PROOFS. The family 20_memory.md: what arrives between transactions, the byte lanes of an access, repeated and narrow
accesses, and a chunk that passes the top of the address space. -/

namespace Sys2Proof.Machine

/-! ## Between transactions (R52, R132) -/

/-- Settles O10: the step's first two branches, with the memory rule of one byte stored. -/
theorem betweenTransactionsOnlyAgentsAct : Obligations.BetweenTransactionsOnlyAgentsAct := by
  intro s hrun
  constructor
  · intro hinputs
    simp only [step, hrun, hinputs, idle]
  · intro a b rest hinputs
    have hstep : step s = .next (agentStores a b rest s) := by simp only [step, hrun, hinputs]
    exact ⟨_, hstep, rfl, rfl, rfl, rfl, rfl, rfl, rfl, readByte_writeByte_same s.mem a b,
      fun _ hx => readByte_writeByte_other s.mem b hx⟩

/-! ## Byte lanes (R34) -/

/-- A w-byte access holds a byte below w and nothing from w on. -/
theorem busLanes_getElem? (w : Width) (value : DWord) (k : Nat) :
    (busLanes w value)[k]? = if k < w.bytes then some (laneByte value k) else none := by
  by_cases hk : k < w.bytes <;> simp [busLanes, hk]

/-- Bit i of the bus value put together from bytes is bit i mod 8 of byte i / 8. -/
theorem getLsbD_ofLanes (bs : List Byte) : ∀ i : Nat, i < 64 →
    (ofLanes bs).getLsbD i = (bs[i / 8]?.getD 0#8).getLsbD (i % 8) := by
  induction bs with
  | nil => simp [ofLanes]
  | cons b bs ih =>
    intro i hi
    by_cases hlow : i < 8
    · have hdiv : i / 8 = 0 := by omega
      have hmod : i % 8 = i := by omega
      simp [ofLanes, hi, hlow, hdiv, hmod]
    · have hdiv : i / 8 = (i - 8) / 8 + 1 := by omega
      have hmod : i % 8 = (i - 8) % 8 := by omega
      have hbyte : b.getLsbD i = false := BitVec.getLsbD_of_ge b i (by omega)
      rw [hdiv, hmod, List.getElem?_cons_succ, ← ih (i - 8) (by omega)]
      simp [ofLanes, hi, hlow, hbyte, BitVec.getLsbD_eq_getElem (show i - 8 < 64 by omega)]

/-- The bytes of an access put together are its bus value: bit by bit, as bit i lies in byte i / 8. -/
theorem ofLanes_busLanes (w : Width) (value : DWord) : ofLanes (busLanes w value) = busValue w value := by
  apply BitVec.eq_of_getLsbD_eq
  intro i hi
  have hbyte : i / 8 < w.bytes ↔ i < 8 * w.bytes := by omega
  rw [getLsbD_ofLanes _ i hi, busLanes_getElem?]
  by_cases h : i < 8 * w.bytes
  · simp [busValue, laneByte, hbyte, h, hi, Nat.mod_lt, Nat.div_add_mod]
  · simp [busValue, hbyte, h]

/-- Settles O54: the lanes by index, and put together by `ofLanes_busLanes`. -/
theorem byteLanesRebuildTheBusValue : Obligations.ByteLanesRebuildTheBusValue := by
  intro w value
  refine ⟨by simp [busLanes], fun k hk => ?_, ofLanes_busLanes w value⟩
  rw [busLanes_getElem?, if_pos hk, laneByte]

/-! ## A chunk that passes the top of the address space (R44) -/

/-- A triggering START write whose first chunk does not fit is refused with a crossing address, the source where both
cross (log 13). -/
theorem execWrStart_of_not_fits {w : Width} {value : DWord} {s : State} (hv : value.getLsbD 0 = true)
    (hstep : 1 ≤ effectiveStep s.params s.dev.bank) (hn : ¬TransferFits s.params s.dev.bank) :
    execWrStart w value s = .refused (.chunkCrossesTop
      (if 2 ^ 64 < (srcAbs s.params s.dev.bank).toNat + firstChunk s.params s.dev.bank
        then srcAbs s.params s.dev.bank else dstCur s.dev.bank)
      (firstChunk s.params s.dev.bank)) := by
  rcases execWrStart_cases w hv s with ⟨h0, _⟩ | ⟨h0, _⟩ | ⟨_, _, h⟩ | ⟨⟨_, hfits⟩, _⟩
  · omega
  · omega
  · exact h
  · exact absurd hfits hn

/-- Settles O29: the two outcomes of a trigger with a chunk size of at least 1, told apart by `TransferFits`. -/
theorem chunkPastTheTopIsRefused : Obligations.ChunkPastTheTopIsRefused := by
  rintro s w value src dst k hv hstep hsrc rfl hk
  obtain rfl : src = srcAbs s.params s.dev.bank := hsrc
  obtain rfl : k = firstChunk s.params s.dev.bank := hk
  constructor
  · intro hcross
    have hn : ¬TransferFits s.params s.dev.bank := fun ⟨h1, h2⟩ =>
      hcross.elim (Nat.not_lt.mpr h1) (Nat.not_lt.mpr h2)
    refine ⟨_, execWrStart_of_not_fits hv hstep hn, ite_eq_or_eq _ _ _, ?_⟩
    split
    · assumption
    · next hsrc => exact hcross.resolve_left hsrc
  · intro h1 h2
    exact ⟨_, execWrStart_of_runs hv ⟨hstep, h1, h2⟩⟩

/-! ## Repeated reads (R41) -/

/-- A Read of an admitted width decodes by its offset. -/
theorem decode_of_read {t : Txn} {p : NarrowAccess} (hread : t.isRead = true)
    (hw : t.width.isNarrow = true → p = .literal) :
    decode p t = decodeRead (offsetField t.descriptor) t.width := by
  have haccess : t.access = .read := by
    simp only [Txn.isRead, Bool.and_eq_true, Bool.not_eq_true'] at hread
    simp [Txn.access, hread]
  rw [decode_bus (not_event_of_read hread) hw, haccess, decodeRegister]

/-- The step of a Read that completes is the read at its offset. -/
theorem exec_decodeRead_of_step {s u : State} {t : Txn} {rest : List Input} (hp : Pending s t rest)
    (hread : t.isRead = true) (h : step s = .next u) :
    exec (decodeRead (offsetField t.descriptor) t.width) (takeTransaction rest s) = .next u := by
  obtain ⟨-, hwidth, -⟩ := (stepCompletesExactlyWhenAdmitted s t rest hp).mp ⟨u, h⟩
  rw [← decode_of_read hread (hwidth (not_event_of_read hread)), ← h, step_of_pending hp]

/-- What a register read hands back depends on the register bank alone (R71). -/
theorem exec_reads_of_same_bank {i : Instr} (h : Reads i) {s s' : State} (hbank : s'.dev.bank = s.dev.bank) :
    ∃ v, exec i s = .next (s.respond (some v)) ∧ exec i s' = .next (s'.respond (some v)) := by
  cases i <;> cases h <;> exact ⟨_, rfl, by rw [← hbank]; rfl⟩

/-- Two reads at one offset and width, of the same bank, hand back the same value: 0 at an undefined offset (R82), the
register's elsewhere. -/
theorem decodeRead_same_response {off : Offset} {w : Width} {s s' u u' : State} (hbank : s'.dev.bank = s.dev.bank)
    (h : exec (decodeRead off w) s = .next u) (h' : exec (decodeRead off w) s' = .next u') :
    u'.response = u.response := by
  rcases decodeRead_cases off w with ⟨hr, _⟩ | ⟨hr, _⟩
  · obtain ⟨v, hv, hv'⟩ := exec_reads_of_same_bank hr hbank
    obtain rfl := Host.Outcome.next.inj (hv.symm.trans h)
    obtain rfl := Host.Outcome.next.inj (hv'.symm.trans h')
    rfl
  · rw [hr] at h h'
    obtain rfl := Host.Outcome.next.inj h
    obtain rfl := Host.Outcome.next.inj h'
    rfl

/-- Settles O16: the first read leaves the device state as it was (O15), so the second reads the same bank. -/
theorem repeatedReadReturnsTheSameValue : Obligations.RepeatedReadReturnsTheSameValue := by
  intro s u v t rest hp hread hu hv
  obtain ⟨hdev, -⟩ := readTransactionChangesNoDeviceState s u t _ hp hread hu
  obtain ⟨hinputs, -⟩ := (eachTransactionAdvancesThePlace s u hu).1 t _ hp
  have hp' : Pending u t rest := ⟨(congrArg Device.halted hdev).trans hp.1, hinputs⟩
  obtain ⟨hdev', -⟩ := readTransactionChangesNoDeviceState u v t _ hp' hread hv
  have hbank : (takeTransaction rest u).dev.bank = (takeTransaction (.bus t :: rest) s).dev.bank :=
    congrArg Device.bank hdev
  exact ⟨decodeRead_same_response hbank (exec_decodeRead_of_step hp hread hu) (exec_decodeRead_of_step hp' hread hv),
    hdev'.trans hdev⟩

/-! ## Repeated writes (R41) -/

/-- A write that only stores, with an idempotent change of the bank, repeats without effect. -/
theorem writeStores_repeated {f : Bank → Bank} (hf : ∀ b, f (f b) = f b) {s t : State}
    (h : writeStores (f s.dev.bank) s = .next t) : writeStores (f t.dev.bank) t = .next t := by
  obtain rfl := Host.Outcome.next.inj h
  rw [respond_bank, setBank_bank, hf]
  rfl

/-- The same where the line is recomputed after the store, since the second recompute sees the same bank. -/
theorem writeStoresAndRecomputes_repeated {f : Bank → Bank} (hf : ∀ b, f (f b) = f b) {s t : State}
    (h : writeStoresAndRecomputes (f s.dev.bank) s = .next t) :
    writeStoresAndRecomputes (f t.dev.bank) t = .next t := by
  obtain rfl := Host.Outcome.next.inj h
  rw [respond_bank, recompute_bank, setBank_bank, hf]
  rfl

/-- Merging the same bits in a second time changes nothing, whatever the mask: bit by bit. -/
theorem masked_or_masked_or (d m x : DWord) : (((d &&& m) ||| x) &&& m) ||| x = (d &&& m) ||| x := by
  have hbit : ∀ a b c : Bool, (((a && b) || c) && b || c) = (a && b || c) := by decide
  apply BitVec.eq_of_getLsbD_eq
  intro i _
  simp only [BitVec.getLsbD_or, BitVec.getLsbD_and, hbit]

/-- The merge into the low half of DST_ADDR overwrites an earlier one (R89). -/
theorem withDstLow_withDstLow (d : DWord) (lo : Word) : withDstLow (withDstLow d lo) lo = withDstLow d lo :=
  masked_or_masked_or d _ _

/-- The replacement of the high half of DST_ADDR overwrites an earlier one (R91). -/
theorem withDstHigh_withDstHigh (d : DWord) (hi : Word) : withDstHigh (withDstHigh d hi) hi = withDstHigh d hi := by
  simp only [withDstHigh, BitVec.or_comm (hi.setWidth 64 <<< 32), masked_or_masked_or]

/-- Settles O24: the change each write makes to the bank is idempotent; for the two partial writes of DST_ADDR by the
rules of the halves, for the others because the stored value does not depend on the bank. -/
theorem repeatedWriteLeavesTheSameState : Obligations.RepeatedWriteLeavesTheSameState := by
  intro s t w v i hi h
  simp only [List.mem_cons, List.not_mem_nil, or_false] at hi
  rcases hi with rfl | rfl | rfl | rfl | rfl | rfl | rfl | rfl | rfl
  · exact writeStores_repeated (f := fun b => { b with controls := low32 (busValue w v) }) (fun _ => rfl) h
  · exact writeStores_repeated (f := fun b => { b with srcAddr := low32 (busValue w v) }) (fun _ => rfl) h
  · exact writeStores_repeated (f := fun b => { b with len := low32 (busValue w v) }) (fun _ => rfl) h
  · exact writeStores_repeated (f := fun b => { b with dstAddr := withDstLow b.dstAddr (low32 (busValue .w4 v)) })
      (fun b => by simp only [withDstLow_withDstLow]) h
  · exact writeStores_repeated (f := fun b => { b with dstAddr := busValue .w8 v }) (fun _ => rfl) h
  · exact writeStores_repeated (f := fun b => { b with dstAddr := busValue w v }) (fun _ => rfl) h
  · exact writeStores_repeated (f := fun b => { b with dstAddr := withDstHigh b.dstAddr (low32 (busValue w v)) })
      (fun b => by simp only [withDstHigh_withDstHigh]) h
  · exact writeStores_repeated (f := fun b => { b with settings := low32 (busValue w v) }) (fun _ => rfl) h
  · exact writeStoresAndRecomputes_repeated (f := fun b => { b with irqEn := low32 (busValue w v) }) (fun _ => rfl) h

/-! ## Narrow accesses under `literal` (R36, R59, R65) -/

/-- Two transactions that decode to instructions of one meaning have one step. -/
theorem step_of_same_meaning {s : State} {t t' : Txn} (rest : List Input)
    (h : ∀ u, exec (decode s.params.narrowAccess t) u = exec (decode s.params.narrowAccess t') u) :
    step { s with inputs := .bus t :: rest } = step { s with inputs := .bus t' :: rest } := by
  unfold step
  cases s.dev.halted with
  | some why => rfl
  | none => exact h _

/-- A defined offset is one of the nine of R60. -/
theorem definedOffset_cases {off : Offset} (h : undefinedOffset off = false) :
    off = Config.offStart ∨ off = Config.offControls ∨ off = Config.offSrcAddr ∨ off = Config.offLen ∨
    off = Config.offDstAddr ∨ off = Config.offDstAddrHi ∨ off = Config.offSettings ∨ off = Config.offIrqEn ∨
    off = Config.offIrqSta := by
  have hmem : off ∈ Config.definedOffsets := by simpa [undefinedOffset] using h
  simpa [Config.definedOffsets] using hmem

/-- A narrow read at a defined offset means what the width-8 read means: at DST_ADDR both are the full view (R61, R77),
and elsewhere the width selects nothing. -/
theorem exec_decodeRead_narrow {w : Width} (hw : w.isNarrow = true) {off : Offset} (ho : undefinedOffset off = false)
    (s : State) : exec (decodeRead off w) s = exec (decodeRead off .w8) s := by
  rcases definedOffset_cases ho with rfl | rfl | rfl | rfl | rfl | rfl | rfl | rfl | rfl
  · rfl
  · rfl
  · rfl
  · rfl
  · cases w <;> cases hw <;> rfl
  · rfl
  · rfl
  · rfl
  · rfl

/-- A narrow write at a defined offset means what the width-8 write of its bus value means: the bus value is all that a
write looks at (R59), and at DST_ADDR both are the full view (R61, R90). -/
theorem exec_decodeWrite_narrow {w : Width} (hw : w.isNarrow = true) {off : Offset}
    (ho : undefinedOffset off = false) (value : DWord) (s : State) :
    exec (decodeWrite off w value) s = exec (decodeWrite off .w8 (busValue w value)) s := by
  rcases definedOffset_cases ho with rfl | rfl | rfl | rfl | rfl | rfl | rfl | rfl | rfl
  · simp [exec, execWrStart]
  · simp [exec, execWrControls]
  · simp [exec, execWrSrcAddr]
  · simp [exec, execWrLen]
  · cases w <;> cases hw <;> simp [decodeDstWrite, exec, execWrDstAddrNarrow, execWrDstAddrW8]
  · simp [exec, execWrDstAddrHi]
  · simp [exec, execWrSettings]
  · simp [exec, execWrIrqEn]
  · simp [exec, execWrIrqSta]

/-- Settles O50: under `literal` both widths reach the register decode, where the two accesses mean the same. -/
theorem narrowAccessFollowsTheWidthEightRules : Obligations.NarrowAccessFollowsTheWidthEightRules := by
  intro s w off value rest hp hw ho
  constructor
  · refine step_of_same_meaning rest fun u => ?_
    rw [hp, decode_encodeRead (admitted_literal w), decode_encodeRead (admitted_literal .w8)]
    exact exec_decodeRead_narrow hw ho u
  · refine step_of_same_meaning rest fun u => ?_
    rw [hp, decode_encodeWrite (admitted_literal w), decode_encodeWrite (admitted_literal .w8)]
    exact exec_decodeWrite_narrow hw ho value u

end Sys2Proof.Machine

/-! PROOFS. The family 30_encoding.md: the round trips of encoder and decoder, the decoder against the opcode table, the
data bits a write takes, the two refused rows, and the pseudo-instructions. -/

namespace Sys2Proof.Machine

/-! ## Decoding what was encoded (R57, R60, R61) -/

/-- Settles O1: events by their words, a bus row by the fields of its descriptor and then by its offset; at DST_ADDR the
width picks the view. -/
theorem decodeOfEncodeIsTheInstruction : Obligations.DecodeOfEncodeIsTheInstruction := by
  intro p i h
  cases i with
  | reset => exact decode_resetWord p _
  | reserved rest => exact decode_eventWord p _ rfl (bne_iff_ne.mp h)
  | narrowRefuse w off acc =>
    obtain ⟨hw, hp⟩ := Bool.and_eq_true_iff.mp h
    obtain rfl := eq_of_beq hp
    cases acc with
    | read => exact decode_narrowWord _ rfl hw
    | write value => exact decode_narrowWord value rfl hw
  | rdDstAddrW4 => exact decode_encodeRead (admitted_w4 p) _
  | rdDstAddrW8 => exact decode_encodeRead (admitted_w8 p) _
  | wrDstAddrW4 value => exact decode_encodeWrite (admitted_w4 p) _ value
  | wrDstAddrW8 value => exact decode_encodeWrite (admitted_w8 p) _ value
  | rdDstAddrNarrow w =>
    obtain ⟨hw, hp⟩ := Bool.and_eq_true_iff.mp h
    obtain rfl := eq_of_beq hp
    refine (decode_encodeRead (admitted_literal w) _).trans ?_
    cases w <;> cases hw <;> rfl
  | wrDstAddrNarrow w value =>
    obtain ⟨hw, hp⟩ := Bool.and_eq_true_iff.mp h
    obtain rfl := eq_of_beq hp
    refine (decode_encodeWrite (admitted_literal w) _ value).trans ?_
    cases w <;> cases hw <;> rfl
  | rdUndefined off w =>
    obtain ⟨hw, hoff⟩ := Bool.and_eq_true_iff.mp h
    exact (decode_encodeRead hw off).trans (decodeRead_undefined hoff w)
  | wrUndefined off w value =>
    obtain ⟨hw, hoff⟩ := Bool.and_eq_true_iff.mp h
    exact (decode_encodeWrite hw off value).trans (decodeWrite_undefined hoff w value)
  | rdStart w | rdControls w | rdSrcAddr w | rdLen w | rdDstAddrHi w | rdSettings w | rdIrqEn w | rdIrqSta w =>
    exact decode_encodeRead h _
  | wrStart w value | wrControls w value | wrSrcAddr w value | wrLen w value | wrDstAddrHi w value
  | wrSettings w value | wrIrqEn w value | wrIrqSta w value => exact decode_encodeWrite h _ value

/-! ## Encoding what was decoded (R57, R67) -/

/-- The encoder finds the offset of every decoded Read again. -/
theorem encode_decodeRead (off : Offset) (w : Width) : encode (decodeRead off w) = encodeRead w off := by
  cases h : undefinedOffset off with
  | true => rw [decodeRead_undefined h, encode]
  | false =>
    rcases definedOffset_cases h with rfl | rfl | rfl | rfl | rfl | rfl | rfl | rfl | rfl
    case inr.inr.inr.inr.inl => cases w <;> rfl
    all_goals rfl

/-- The encoder finds the offset of every decoded Write again. -/
theorem encode_decodeWrite (off : Offset) (w : Width) (value : DWord) :
    encode (decodeWrite off w value) = encodeWrite w off value := by
  cases h : undefinedOffset off with
  | true => rw [decodeWrite_undefined h, encode]
  | false =>
    rcases definedOffset_cases h with rfl | rfl | rfl | rfl | rfl | rfl | rfl | rfl | rfl
    case inr.inr.inr.inr.inl => cases w <;> rfl
    all_goals rfl

theorem isRead_iff {t : Txn} :
    t.isRead = true ↔ evField t.descriptor = false ∧ dirField t.descriptor = false := by
  simp [Txn.isRead]

theorem isWrite_iff {t : Txn} :
    t.isWrite = true ↔ evField t.descriptor = false ∧ dirField t.descriptor = true := by
  simp [Txn.isWrite]

/-- A bus transaction is a Read or a Write, and its access says which (R57). -/
theorem access_cases {t : Txn} (h : evField t.descriptor = false) :
    (t.isRead = true ∧ t.access = .read) ∨ (t.isWrite = true ∧ t.access = .write t.data) := by
  cases hd : dirField t.descriptor with
  | false => exact .inl ⟨isRead_iff.mpr ⟨h, hd⟩, by simp [Txn.access, hd]⟩
  | true => exact .inr ⟨isWrite_iff.mpr ⟨h, hd⟩, by simp [Txn.access, hd]⟩

/-- A Read is put together again from its width and its offset, with 0 on the data lane (log 2). -/
theorem encodeRead_of_read {t : Txn} (h : t.isRead = true) :
    encodeRead t.width (offsetField t.descriptor) = ⟨t.descriptor, 0#64⟩ := by
  obtain ⟨hev, hdir⟩ := isRead_iff.mp h
  rw [encodeRead, ← hdir, Txn.width, busDescriptor_fields hev]

/-- A Write is put together again from its width, its offset and its data word. -/
theorem encodeWrite_of_write {t : Txn} (h : t.isWrite = true) :
    encodeWrite t.width (offsetField t.descriptor) t.data = t := by
  obtain ⟨hev, hdir⟩ := isWrite_iff.mp h
  rw [encodeWrite, ← hdir, Txn.width, busDescriptor_fields hev]

/-- What of a transaction has a meaning: the descriptor, and the data word of one that carries it (R57, R67). -/
def meaningfulPart (t : Txn) : Txn := ⟨t.descriptor, if t.carriesData then t.data else 0#64⟩

theorem meaningfulPart_of_write {t : Txn} (h : t.isWrite = true) : meaningfulPart t = t := by
  rw [meaningfulPart, show t.carriesData = true from h, if_pos rfl]

theorem meaningfulPart_of_not_write {t : Txn} (h : t.isWrite = false) : meaningfulPart t = ⟨t.descriptor, 0#64⟩ := by
  rw [meaningfulPart, show t.carriesData = false from h, if_neg Bool.false_ne_true]

/-- A refused access keeps its transaction's meaningful part, whatever its width. -/
theorem encode_narrowRefuse {t : Txn} (hev : evField t.descriptor = false) :
    encode (.narrowRefuse t.width (offsetField t.descriptor) t.access) = meaningfulPart t := by
  rcases access_cases hev with ⟨hread, hacc⟩ | ⟨hwrite, hacc⟩
  · rw [hacc, encode, encodeRead_of_read hread, meaningfulPart_of_not_write (not_write_of_read hread)]
  · rw [hacc, encode, encodeWrite_of_write hwrite, meaningfulPart_of_write hwrite]

/-- Encoding a decoded transaction gives its meaningful part back. -/
theorem encode_decode (p : NarrowAccess) (t : Txn) : encode (decode p t) = meaningfulPart t := by
  rcases decode_cases p t with
    ⟨hev, hreset, hd⟩ | ⟨hev, _, r, hd, hr⟩ | ⟨hev, _, _, hd⟩ | ⟨hread, _, hd⟩ | ⟨hwrite, _, hd⟩ <;> rw [hd]
  · rw [meaningfulPart_of_not_write (not_write_of_event hev), encode, eq_of_beq hreset]
  · rw [meaningfulPart_of_not_write (not_write_of_event hev), encode, hr]
  · exact encode_narrowRefuse hev
  · rw [encode_decodeRead, encodeRead_of_read hread, meaningfulPart_of_not_write (not_write_of_read hread)]
  · rw [encode_decodeWrite, encodeWrite_of_write hwrite, meaningfulPart_of_write hwrite]

/-- Settles O2: the two fields of the meaningful part. -/
theorem encodeOfDecodeKeepsEveryBit : Obligations.EncodeOfDecodeKeepsEveryBit := by
  intro p t
  rw [encode_decode]
  exact ⟨rfl, rfl⟩

/-! ## Decoded instructions are well-formed (R68) -/

theorem wellFormed_decodeRead {p : NarrowAccess} {w : Width} (hw : admitted p w = true) (off : Offset) :
    wellFormed p (decodeRead off w) = true := by
  cases h : undefinedOffset off with
  | true =>
    rw [decodeRead_undefined h, wellFormed, hw, h]
    rfl
  | false =>
    rcases definedOffset_cases h with rfl | rfl | rfl | rfl | rfl | rfl | rfl | rfl | rfl
    case inr.inr.inr.inr.inl =>
      rw [decodeRead_offDstAddr]
      cases w <;> exact hw
    all_goals exact hw

theorem wellFormed_decodeWrite {p : NarrowAccess} {w : Width} (hw : admitted p w = true) (off : Offset)
    (value : DWord) : wellFormed p (decodeWrite off w value) = true := by
  cases h : undefinedOffset off with
  | true =>
    rw [decodeWrite_undefined h, wellFormed, hw, h]
    rfl
  | false =>
    rcases definedOffset_cases h with rfl | rfl | rfl | rfl | rfl | rfl | rfl | rfl | rfl
    case inr.inr.inr.inr.inl =>
      rw [decodeWrite_offDstAddr]
      cases w <;> exact hw
    all_goals exact hw

/-- Settles O3: by the five kinds of transaction. A reserved event is no reset, so its 15 bits are not all 0. -/
theorem decodedTransactionIsWellFormed : Obligations.DecodedTransactionIsWellFormed := by
  intro p t
  rcases decode_cases p t with
    ⟨_, _, hd⟩ | ⟨_, hreset, r, hd, hr⟩ | ⟨_, hnarrow, rfl, hd⟩ | ⟨_, hw, hd⟩ | ⟨_, hw, hd⟩ <;> rw [hd]
  · rfl
  · refine bne_iff_ne.mpr fun hr0 => ?_
    rw [Txn.isReset, ← hr, eventDescriptor_eq_reset.mpr hr0] at hreset
    exact absurd hreset (by decide)
  · rw [wellFormed, hnarrow]
    rfl
  · exact wellFormed_decodeRead (admitted_iff.mpr hw) _
  · exact wellFormed_decodeWrite (admitted_iff.mpr hw) _ _

/-! ## The spec's decode table (R56, R68, R69) -/

/-- Settles O6: each word is the descriptor that its fields make. -/
theorem decodeTableVectors : Obligations.DecodeTableVectors := by
  refine ⟨decode_resetWord, fun p x => ?_, fun p x => ?_, fun p x => ?_, fun p x => ?_, fun p x => ?_, fun x => ?_,
    fun x => ?_, fun x => ?_, fun x => ?_, by decide, by decide⟩
  · exact decode_eventWord p x (by decide) (by decide)
  · exact decode_readWord (w := .w4) (off := 0x000#12) x (by decide) rfl
  · exact decode_writeWord (w := .w8) (off := 0x058#12) x (by decide) rfl
  · exact decode_writeWord (w := .w4) (off := 0xFFF#12) x (by decide) rfl
  · exact decode_readWord (w := .w4) (off := 0x012#12) x (by decide) rfl
  · exact decode_narrowWord (w := .w2) (dir := false) (off := 0x054#12) x (by decide) rfl
  · exact decode_readWord (w := .w2) (off := 0x054#12) x (by decide) rfl
  · exact decode_narrowWord (w := .w1) (dir := false) (off := 0x001#12) x (by decide) rfl
  · exact decode_readWord (w := .w1) (off := 0x001#12) x (by decide) rfl

/-- Masking an address with 0xFFF keeps the bits that the device sees (R56). -/
theorem busOffset_masked (address : Addr) : busOffset (address &&& 0xFFF#64) = busOffset address := by
  rw [busOffset, busOffset, BitVec.setWidth_and]
  exact BitVec.and_allOnes

/-- Settles O7: a request's transaction depends on the address through `busOffset` alone. -/
theorem deviceSeesLowTwelveAddressBits : Obligations.DeviceSeesLowTwelveAddressBits := by
  intro address w value
  refine ⟨?_, ?_, ?_, ?_⟩
  · rw [assemble, assemble, busOffset_masked]
  · rw [assemble, assemble, busOffset_masked]
  · exact (offsetField_busDescriptor w false _).trans (busOffset_masked address).symm
  · exact (offsetField_busDescriptor w true _).trans (busOffset_masked address).symm

/-! ## The two refused rows (R64, R65, R115) -/

/-- Settles O49: a refusal records the encoding of the refused instruction, which is the pending descriptor. -/
theorem reservedAndNarrowTransactionsAreRefused : Obligations.ReservedAndNarrowTransactionsAreRefused := by
  refine ⟨fun _ _ => rfl, fun _ w off acc => ?_, fun s t rest hp => ⟨fun hev hne => ?_, fun hev hw hrefuse => ?_⟩⟩
  · cases acc <;> rfl
  · rw [step_of_pending hp, decode_event hev, if_neg hne, exec, execReserved, eventDescriptor_fields hev]
  · rw [step_of_pending hp, hrefuse, decode_narrow hev hw, exec, execNarrowRefuse, encode_narrowRefuse hev,
      meaningfulPart]

/-! ## Rows of the opcode table (R68) -/

theorem applies_iff {p : NarrowAccess} {d : BitVec 16} {r : OpcodeRow} :
    r.applies p d = true ↔ d &&& r.mask = r.pattern ∧ (r.condition = none ∨ r.condition = some p) := by
  simp [OpcodeRow.applies]

/-- Rows of one priority differ in a bit that both masks keep. -/
def SeparateWhereTied (r q : OpcodeRow) : Prop :=
  r.priority = q.priority → r.pattern &&& q.mask ≠ q.pattern &&& r.mask

theorem separateWhereTied_symm : Std.Symm SeparateWhereTied :=
  ⟨fun _ _ h hp he => h hp.symm he.symm⟩

theorem opcodeTable_separate : opcodeTable.Pairwise SeparateWhereTied := by
  unfold SeparateWhereTied
  decide

/-- Settles O5: a descriptor to which both rows applied would agree with both patterns in a bit where they differ. -/
theorem opcodeRowsOfOnePriorityDoNotOverlap : Obligations.OpcodeRowsOfOnePriorityDoNotOverlap := by
  rintro r hr q hq hne hprio p d ⟨har, haq⟩
  have hsymm := separateWhereTied_symm
  have hdiffer := opcodeTable_separate.forall hr hq hne hprio
  rw [← (applies_iff.mp har).1, ← (applies_iff.mp haq).1] at hdiffer
  exact hdiffer (by ac_rfl)

/-! ## The row of least priority number (R68) -/

theorem leastPriority_mem {l : List OpcodeRow} {q : OpcodeRow} (h : leastPriority l = some q) : q ∈ l := by
  induction l generalizing q with
  | nil => cases h
  | cons r rs ih =>
    rw [leastPriority] at h
    cases hrs : leastPriority rs with
    | none =>
      rw [hrs] at h
      exact Option.some.inj h ▸ List.mem_cons_self
    | some x =>
      rw [hrs] at h
      dsimp only at h
      split at h
      · exact Option.some.inj h ▸ List.mem_cons_self
      · exact List.mem_cons_of_mem r (Option.some.inj h ▸ ih hrs)

/-- A row whose priority number is strictly below that of every other row in the list is the one found. -/
theorem leastPriority_eq {l : List OpcodeRow} {r : OpcodeRow} (hr : r ∈ l)
    (hleast : ∀ q ∈ l, q ≠ r → r.priority < q.priority) : leastPriority l = some r := by
  induction l with
  | nil => cases hr
  | cons x xs ih =>
    rw [List.forall_mem_cons] at hleast
    obtain ⟨hx, hxs⟩ := hleast
    rw [leastPriority]
    by_cases hxr : x = r
    · subst hxr
      cases hrs : leastPriority xs with
      | none => rfl
      | some q =>
        by_cases hq : q = x
        · simp [hq]
        · exact if_pos (hxs q (leastPriority_mem hrs) hq).le
    · rw [ih ((List.mem_cons.mp hr).resolve_left (Ne.symm hxr)) hxs]
      exact if_neg (Nat.not_le.mpr (hx hxr))

/-- A row that applies, and has the least priority number of those that do, is the table's row: by O5 no other row of
its priority applies. -/
theorem tableRow_eq {p : NarrowAccess} {d : BitVec 16} {r : OpcodeRow} (hr : r ∈ opcodeTable)
    (ha : r.applies p d = true) (hleast : ∀ q ∈ opcodeTable, q.applies p d = true → r.priority ≤ q.priority) :
    tableRow p d = some r := by
  refine leastPriority_eq (List.mem_filter.mpr ⟨hr, ha⟩) fun q hq hne => ?_
  obtain ⟨hq, haq⟩ := List.mem_filter.mp hq
  refine lt_of_le_of_ne (hleast q hq haq) fun hprio => ?_
  exact opcodeRowsOfOnePriorityDoNotOverlap r hr q hq hne.symm hprio p d ⟨ha, haq⟩

/-! ## The descriptors that the rows of each priority apply to -/

section AppliedRow

variable {p : NarrowAccess} {d : BitVec 16} {q : OpcodeRow}

theorem opcodeTable_priority_pos : ∀ q ∈ opcodeTable, 1 ≤ q.priority := by decide

theorem reset_of_priority_one (hq : q ∈ opcodeTable) (ha : q.applies p d = true) (h : q.priority = 1) :
    d = 0x8000#16 := by
  have hrow : ∀ q ∈ opcodeTable, q.priority = 1 → q.mask = BitVec.allOnes 16 ∧ q.pattern = 0x8000#16 := by decide
  obtain ⟨hmask, hpattern⟩ := hrow q hq h
  rw [← hpattern, ← (applies_iff.mp ha).1, hmask, BitVec.and_allOnes]

theorem event_of_priority_le_two (hq : q ∈ opcodeTable) (ha : q.applies p d = true) (h : q.priority ≤ 2) :
    evField d = true := by
  have hrow : ∀ q ∈ opcodeTable, q.priority ≤ 2 → evField q.pattern = true := by decide
  have hev := hrow q hq h
  rw [← (applies_iff.mp ha).1, evField, BitVec.getLsbD_and] at hev
  exact (Bool.and_eq_true_iff.mp hev).1

/-- A width is narrow where the high bit of its SIZE code is 0 (R58). -/
theorem isNarrow_ofCode (c : BitVec 2) : (Width.ofCode c).isNarrow = !c.getLsbD 1 := by
  revert c
  decide

theorem narrow_of_priority_three (hq : q ∈ opcodeTable) (ha : q.applies p d = true) (h : q.priority = 3) :
    p = .refuse ∧ (Width.ofCode (sizeField d)).isNarrow = true := by
  have hrow : ∀ q ∈ opcodeTable, q.priority = 3 →
      q.condition = some .refuse ∧ q.mask.getLsbD 14 = true ∧ q.pattern.getLsbD 14 = false := by decide
  obtain ⟨hcond, hmask, hpattern⟩ := hrow q hq h
  obtain ⟨hd, hp⟩ := applies_iff.mp ha
  rw [← hd, BitVec.getLsbD_and, hmask, Bool.and_true] at hpattern
  refine ⟨?_, ?_⟩
  · rw [hcond] at hp
    simpa [eq_comm] using hp
  · simpa [isNarrow_ofCode, sizeField] using hpattern

theorem defined_of_priority_four (hq : q ∈ opcodeTable) (ha : q.applies p d = true) (h : q.priority = 4) :
    undefinedOffset (offsetField d) = false := by
  have hrow : ∀ q ∈ opcodeTable, q.priority = 4 →
      offsetField q.mask = BitVec.allOnes 12 ∧ undefinedOffset (offsetField q.pattern) = false := by decide
  obtain ⟨hmask, hpattern⟩ := hrow q hq h
  rwa [← (applies_iff.mp ha).1, offsetField, BitVec.extractLsb'_and, ← offsetField, ← offsetField, hmask,
    BitVec.and_allOnes] at hpattern

end AppliedRow

/-! ## The decoder against the table -/

/-- The priority of an instruction's row. -/
def rowPriority : Instr → Nat
  | .reset => 1
  | .reserved _ => 2
  | .narrowRefuse _ _ _ => 3
  | .rdUndefined _ _ => 5
  | .wrUndefined _ _ _ => 5
  | _ => 4

theorem priority_of_mnemonic (i : Instr) :
    ∀ r ∈ opcodeTable, r.mnemonic = i.mnemonic → r.priority = rowPriority i := by
  cases i <;> dsimp only [Instr.mnemonic, rowPriority] <;> decide

theorem rowPriority_of_reads {i : Instr} (h : Reads i) : rowPriority i = 4 := by
  cases i <;> cases h <;> rfl

theorem rowPriority_of_stores {i : Instr} (h : Stores i) : rowPriority i = 4 := by
  cases i <;> cases h <;> rfl

theorem rowPriority_decodeRead (off : Offset) (w : Width) :
    rowPriority (decodeRead off w) = if undefinedOffset off then 5 else 4 := by
  rcases decodeRead_cases off w with ⟨hreads, ho⟩ | ⟨hr, ho⟩
  · rw [rowPriority_of_reads hreads, ho]
    rfl
  · rw [hr, ho]
    rfl

theorem rowPriority_decodeWrite (off : Offset) (w : Width) (value : DWord) :
    rowPriority (decodeWrite off w value) = if undefinedOffset off then 5 else 4 := by
  rcases decodeWrite_cases off w value with ⟨rfl, hw⟩ | ⟨rfl, hw⟩ | ⟨rfl, hw⟩ | ⟨ho, hw⟩ | ⟨ho, _, _, _, hstores⟩
  · rw [hw]
    rfl
  · rw [hw]
    rfl
  · rw [hw]
    rfl
  · rw [hw, ho]
    rfl
  · rw [rowPriority_of_stores hstores, ho]
    rfl

/-- No row that applies to a bus descriptor of an admitted width comes before its register row. -/
theorem register_priority_le {p : NarrowAccess} {t : Txn} (hev : evField t.descriptor = false)
    (hw : t.width.isNarrow = true → p = .literal) {q : OpcodeRow} (hq : q ∈ opcodeTable)
    (ha : q.applies p t.descriptor = true) :
    (if undefinedOffset (offsetField t.descriptor) then 5 else 4) ≤ q.priority := by
  have h2 : ¬q.priority ≤ 2 := fun h =>
    Bool.false_ne_true (hev.symm.trans (event_of_priority_le_two hq ha h))
  have h3 : q.priority ≠ 3 := fun h => by
    obtain ⟨hp, hn⟩ := narrow_of_priority_three hq ha h
    cases hp.symm.trans (hw hn)
  split
  · next ho =>
    have h4 : q.priority ≠ 4 := fun h =>
      Bool.false_ne_true ((defined_of_priority_four hq ha h).symm.trans ho)
    omega
  · omega

/-- No row that applies to a descriptor comes before the row of its decoded instruction. -/
theorem rowPriority_decode_le {p : NarrowAccess} {t : Txn} {q : OpcodeRow} (hq : q ∈ opcodeTable)
    (ha : q.applies p t.descriptor = true) : rowPriority (decode p t) ≤ q.priority := by
  have h1 := opcodeTable_priority_pos q hq
  rcases decode_cases p t with
    ⟨_, _, hd⟩ | ⟨_, hreset, r, hd, _⟩ | ⟨hev, _, _, hd⟩ | ⟨hread, hw, hd⟩ | ⟨hwrite, hw, hd⟩ <;> rw [hd]
  · exact h1
  · have hne : q.priority ≠ 1 := fun h => by
      rw [Txn.isReset, reset_of_priority_one hq ha h] at hreset
      exact absurd hreset (by decide)
    exact Nat.lt_of_le_of_ne h1 hne.symm
  · exact Nat.lt_of_not_le fun h => Bool.false_ne_true (hev.symm.trans (event_of_priority_le_two hq ha h))
  · rw [rowPriority_decodeRead]
    exact register_priority_le (not_event_of_read hread) hw hq ha
  · rw [rowPriority_decodeWrite]
    exact register_priority_le (not_event_of_write hwrite) hw hq ha

open Laws in
/-- Every instruction's encoding matches the row that bears its mnemonic. -/
theorem encodesItsRow : ∀ i : Instr, EncodesItsRow.Statement i
  | .reset => EncodesItsRow.reset
  | .reserved rest => EncodesItsRow.reserved rest
  | .narrowRefuse w off acc => EncodesItsRow.narrowRefuse w off acc
  | .rdStart w => EncodesItsRow.rdStart w
  | .rdControls w => EncodesItsRow.rdControls w
  | .rdSrcAddr w => EncodesItsRow.rdSrcAddr w
  | .rdLen w => EncodesItsRow.rdLen w
  | .rdDstAddrW4 => EncodesItsRow.rdDstAddrW4
  | .rdDstAddrW8 => EncodesItsRow.rdDstAddrW8
  | .rdDstAddrNarrow w => EncodesItsRow.rdDstAddrNarrow w
  | .rdDstAddrHi w => EncodesItsRow.rdDstAddrHi w
  | .rdSettings w => EncodesItsRow.rdSettings w
  | .rdIrqEn w => EncodesItsRow.rdIrqEn w
  | .rdIrqSta w => EncodesItsRow.rdIrqSta w
  | .rdUndefined off w => EncodesItsRow.rdUndefined off w
  | .wrStart w value => EncodesItsRow.wrStart w value
  | .wrControls w value => EncodesItsRow.wrControls w value
  | .wrSrcAddr w value => EncodesItsRow.wrSrcAddr w value
  | .wrLen w value => EncodesItsRow.wrLen w value
  | .wrDstAddrW4 value => EncodesItsRow.wrDstAddrW4 value
  | .wrDstAddrW8 value => EncodesItsRow.wrDstAddrW8 value
  | .wrDstAddrNarrow w value => EncodesItsRow.wrDstAddrNarrow w value
  | .wrDstAddrHi w value => EncodesItsRow.wrDstAddrHi w value
  | .wrSettings w value => EncodesItsRow.wrSettings w value
  | .wrIrqEn w value => EncodesItsRow.wrIrqEn w value
  | .wrIrqSta w value => EncodesItsRow.wrIrqSta w value
  | .wrUndefined off w value => EncodesItsRow.wrUndefined off w value

/-- Settles O4: the row that bears the mnemonic applies, since the decoded instruction is well-formed (O3) and encodes
to the descriptor (O2), and no row that applies comes before it. -/
theorem decoderFollowsTheOpcodeTable : Obligations.DecoderFollowsTheOpcodeTable := by
  intro p t
  obtain ⟨r, hr, hname, ha⟩ := encodesItsRow (decode p t) p (decodedTransactionIsWellFormed p t)
  rw [(encodeOfDecodeKeepsEveryBit p t).1] at ha
  have hrow : tableRow p t.descriptor = some r := tableRow_eq hr ha fun q hq haq => by
    rw [priority_of_mnemonic _ r hr hname]
    exact rowPriority_decode_le hq haq
  rw [hrow, Option.map_some, hname]

/-! ## The data bits a write takes (R59) -/

theorem busValue_busValue (w : Width) (value : DWord) : busValue w (busValue w value) = busValue w value := by
  have hbits : 8 * w.bytes ≤ 64 := by cases w <;> decide
  unfold busValue
  rw [BitVec.setWidth_setWidth_of_le _ hbits, BitVec.setWidth_eq]

/-- A Write means what the Write of its bus value means, at every offset: the bus value is all that it looks at. -/
theorem exec_decodeWrite_busValue (off : Offset) (w : Width) (value : DWord) (s : State) :
    exec (decodeWrite off w (busValue w value)) s = exec (decodeWrite off w value) s := by
  cases ho : undefinedOffset off with
  | true => simp [decodeWrite_undefined ho, exec, execWrUndefined, busValue_busValue]
  | false =>
    rcases definedOffset_cases ho with rfl | rfl | rfl | rfl | rfl | rfl | rfl | rfl | rfl
    · simp [exec, execWrStart, busValue_busValue]
    · simp [exec, execWrControls, busValue_busValue]
    · simp [exec, execWrSrcAddr, busValue_busValue]
    · simp [exec, execWrLen, busValue_busValue]
    · cases w <;> simp [decodeDstWrite, exec, execWrDstAddrNarrow, execWrDstAddrW4, busValue_busValue]
    · simp [exec, execWrDstAddrHi, busValue_busValue]
    · simp [exec, execWrSettings, busValue_busValue]
    · simp [exec, execWrIrqEn, busValue_busValue]
    · simp [exec, execWrIrqSta, busValue_busValue]

/-- A Write of an admitted width decodes by its offset. -/
theorem decode_of_write {t : Txn} {p : NarrowAccess} (hwrite : t.isWrite = true)
    (hw : t.width.isNarrow = true → p = .literal) :
    decode p t = decodeWrite (offsetField t.descriptor) t.width t.data := by
  rw [← decode_encodeWrite (admitted_iff.mpr hw), encodeWrite_of_write hwrite]

/-- What a Write's instruction means: the refusal of its descriptor at a width that is not admitted, or the write of its
bus value. -/
theorem exec_decode_of_write {t : Txn} (p : NarrowAccess) (hwrite : t.isWrite = true) (s : State) :
    exec (decode p t) s =
      if t.width.isNarrow && p == .refuse then .refused (.narrowAccess t.descriptor)
      else exec (decodeWrite (offsetField t.descriptor) t.width (busValue t.width t.data)) s := by
  have hev := not_event_of_write hwrite
  split
  · next h =>
    obtain ⟨hw, hp⟩ := Bool.and_eq_true_iff.mp h
    rw [eq_of_beq hp, decode_narrow hev hw, exec, execNarrowRefuse, encode_narrowRefuse hev, meaningfulPart]
  · next h =>
    have hw : t.width.isNarrow = true → p = .literal := fun hw => by
      cases p with
      | literal => rfl
      | refuse => exact absurd (Bool.and_eq_true_iff.mpr ⟨hw, rfl⟩) h
    rw [decode_of_write hwrite hw, exec_decodeWrite_busValue]

theorem width_congr {t t' : Txn} (h : t'.descriptor = t.descriptor) : t'.width = t.width := by
  rw [Txn.width, Txn.width, h]

theorem isWrite_congr {t t' : Txn} (h : t'.descriptor = t.descriptor) : t'.isWrite = t.isWrite := by
  rw [Txn.isWrite, Txn.isWrite, h]

/-- Settles O22: both writes are refused with the one descriptor, or both write the one bus value. -/
theorem onlyMeaningfulDataBitsCount : Obligations.OnlyMeaningfulDataBitsCount := by
  intro s t t' rest hwrite hdesc hdata
  have hwrite' : t'.isWrite = true := (isWrite_congr hdesc).trans hwrite
  have hbus : busValue t.width t.data = busValue t.width t'.data := congrArg (BitVec.setWidth 64) hdata
  refine step_of_same_meaning rest fun u => ?_
  rw [exec_decode_of_write _ hwrite, exec_decode_of_write _ hwrite', hdesc, width_congr hdesc, hbus]

/-! ## The halves of DST_ADDR (R89, R91, R138) -/

/-- The merge into the low half keeps the high half (R89). -/
theorem withDstLow_eq (d : DWord) (lo : Word) : withDstLow d lo = dstHigh d ++ lo := by
  have hmask : ∀ i, i < 64 → (0xFFFFFFFF00000000#64).getLsbD i = decide (32 ≤ i) := by decide
  apply BitVec.eq_of_getLsbD_eq
  intro i hi
  rw [withDstLow, BitVec.getLsbD_or, BitVec.getLsbD_and, hmask i hi, BitVec.getLsbD_append]
  by_cases h : i < 32
  · simp [h, hi]
  · have hhigh : i - 32 < 32 ∧ 32 ≤ i ∧ 32 + (i - 32) = i := by omega
    simp [dstHigh, h, hi, hhigh, BitVec.getLsbD_eq_getElem]

/-- The replacement of the high half keeps the low half (R91). -/
theorem withDstHigh_eq (d : DWord) (hi : Word) : withDstHigh d hi = hi ++ dstLow d := by
  have hmask : ∀ i, i < 64 → (0x00000000FFFFFFFF#64).getLsbD i = decide (i < 32) := by decide
  apply BitVec.eq_of_getLsbD_eq
  intro i hlt
  rw [withDstHigh, BitVec.getLsbD_or, BitVec.getLsbD_and, hmask i hlt, BitVec.getLsbD_append]
  by_cases h : i < 32 <;> simp [dstLow, h, hlt]

@[simp] theorem dstHigh_append (hi lo : Word) : dstHigh (hi ++ lo) = hi :=
  BitVec.extractLsb'_append_eq_left

@[simp] theorem dstLow_append (hi lo : Word) : dstLow (hi ++ lo) = lo :=
  BitVec.extractLsb'_append_eq_right

theorem withDstLow_withDstHigh (d : DWord) (hi lo : Word) : withDstLow (withDstHigh d hi) lo = hi ++ lo := by
  rw [withDstLow_eq, withDstHigh_eq, dstHigh_append]

theorem withDstHigh_withDstLow (d : DWord) (hi lo : Word) : withDstHigh (withDstLow d lo) hi = hi ++ lo := by
  rw [withDstHigh_eq, withDstLow_eq, dstLow_append]

/-- Settles O25: each half's write keeps the other half, so both orders put the two halves together. -/
theorem destinationHalvesInEitherOrder : Obligations.DestinationHalvesInEitherOrder := by
  intro s t u t' u' x hi lo v ht hu ht' hu' hx
  obtain rfl := Host.Outcome.next.inj ht
  obtain rfl := Host.Outcome.next.inj hu
  obtain rfl := Host.Outcome.next.inj ht'
  obtain rfl := Host.Outcome.next.inj hu'
  obtain rfl := Host.Outcome.next.inj hx
  have hhigh : low32 (busValue .w4 hi) = hi.extractLsb' 0 32 :=
    (low32_busValue rfl hi).trans (BitVec.setWidth_eq_extractLsb' (by decide))
  have hlow : low32 (busValue .w4 lo) = lo.extractLsb' 0 32 :=
    (low32_busValue rfl lo).trans (BitVec.setWidth_eq_extractLsb' (by decide))
  refine ⟨?_, ?_, busValue_w8 v⟩
  · exact congrArg (fun d => (s.setBank { s.dev.bank with dstAddr := d }).respond none)
      ((withDstLow_withDstHigh _ _ _).trans (withDstHigh_withDstLow _ _ _).symm)
  · rw [← hhigh, ← hlow]
    exact withDstLow_withDstHigh _ _ _

/-! ## Writing the status back (R70, R94, R142) -/

/-- The status bits that an acknowledge toggles come from value[5:0], which the bus carries at every width. -/
theorem ackStatus_busValue (sta : Word) (w : Width) (value : DWord) :
    ackStatus sta (busValue w value) = ackStatus sta value := by
  have hbits : (busValue w value).extractLsb' 0 6 = value.extractLsb' 0 6 := by
    cases w <;> simp [busValue, Width.bytes, ← BitVec.setWidth_eq_extractLsb']
  rw [ackStatus, ackStatus, toggleStatus, toggleStatus, hbits]

/-- A word without a bit above PENDING and without one below it is 0 or PENDING alone. -/
theorem zero_or_pendingOnly {x : Word} (htop : x.extractLsb' 7 25 = 0#25) (hlow : x.extractLsb' 0 6 = 0#6) :
    x = 0#32 ∨ x = Config.pendingOnly := by
  have htop' := congrArg BitVec.toNat htop
  have hlow' := congrArg BitVec.toNat hlow
  simp only [BitVec.extractLsb'_toNat, BitVec.toNat_ofNat, Nat.shiftRight_eq_div_pow] at htop' hlow'
  have hx := x.isLt
  have hcases : x.toNat = 0 ∨ x.toNat = 0x40 := by omega
  exact hcases.imp BitVec.eq_of_toNat_eq BitVec.eq_of_toNat_eq

/-- Toggling the bits that are set leaves none of bits 5:0. -/
theorem toggleStatus_self_low (sta : Word) : (toggleStatus sta (zext64 sta)).extractLsb' 0 6 = 0#6 := by
  simp [toggleStatus, zext64, BitVec.extractLsb'_xor, ← BitVec.setWidth_eq_extractLsb']

/-- Acknowledging what is set leaves 0: PENDING is all that the XOR can leave, and it collapses (R94, R142). -/
theorem ackStatus_self {sta : Word} (h : StatusLegal sta) : ackStatus sta (zext64 sta) = 0#32 := by
  rw [ackStatus, collapse]
  split
  · rfl
  · next hne =>
    exact (zero_or_pendingOnly ((toggleStatus_top sta _).trans h.1) (toggleStatus_self_low sta)).resolve_right hne

/-- Settles O38: the read hands back the status itself. -/
theorem writingBackTheReadStatusClearsIt : Obligations.WritingBackTheReadStatusClearsIt := by
  intro s t u w r hlegal ht hr hu
  obtain rfl := Host.Outcome.next.inj ht
  obtain rfl := Option.some.inj hr
  obtain rfl := Host.Outcome.next.inj hu
  have hack : ackStatus s.dev.bank.irqSta (busValue w (zext64 s.dev.bank.irqSta)) = 0#32 := by
    rw [ackStatus_busValue, ackStatus_self hlegal]
  refine ⟨hack, ?_⟩
  simp [hack, lineFn]

/-! ## CONFIG and TRIGGER (R70, R137) -/

/-- A request's register offset is not changed by the bus address in which it travels (R56). -/
theorem assemble_wrReq (w : Width) (off : Offset) (value : DWord) :
    assemble (wrReq w off value) = encodeWrite w off value := by
  have hoff : busOffset (off.setWidth 64) = off :=
    (BitVec.setWidth_setWidth_of_le off (by decide)).trans (BitVec.setWidth_eq off)
  rw [wrReq, assemble, hoff]

/-- The step of a pending write request of an admitted width is the write at its offset. -/
theorem step_of_wrReq {s : State} {w : Width} {off : Offset} {value : DWord} {rest : List Input}
    (hw : w.isNarrow = false) (hp : Pending s (assemble (wrReq w off value)) rest) :
    step s = exec (decodeWrite off w value) (takeTransaction rest s) := by
  have hadm : admitted s.params.narrowAccess w = true := admitted_iff.mpr fun h => by simp [hw] at h
  rw [step_of_pending hp, assemble_wrReq, decode_encodeWrite hadm]

/-- A run of any machine goes on from the next state of its first step. -/
theorem run_succ {M : Host.Core} {s t : M.State} (h : M.step s = .next t) (k : Nat) :
    M.run (k + 1) s = M.run k t := by
  rw [Host.Core.run, h]

/-- A run whose first request is a write that only changes the bank by `f`. -/
theorem run_of_storeReq {k : Nat} {s : State} {w : Width} {off : Offset} {value : DWord} {rest : List Input}
    (f : Bank → Bank) (hw : w.isNarrow = false) (hp : Pending s (assemble (wrReq w off value)) rest)
    (hstore : ∀ u : State, exec (decodeWrite off w value) u = writeStores (f u.dev.bank) u) :
    Host.Core.run core (k + 1) s =
      Host.Core.run core k (((takeTransaction rest s).setBank (f s.dev.bank)).respond none) :=
  run_succ (M := core) ((step_of_wrReq hw hp).trans (hstore _)) k

/-- A width-4 write gives a 32-bit register value[31:0] (R62). -/
theorem low32_busValue_w4 (value : DWord) : low32 (busValue .w4 value) = value.setWidth 32 :=
  low32_busValue rfl value

/-- The bank that CONFIG leaves (R70, R137). -/
def configuredBank (b : Bank) (src : Word) (n : Nat) (dst : DWord) (c : Nat) : Bank :=
  { b with srcAddr := src, len := BitVec.ofNat 32 (n - 1), dstAddr := dst, controls := BitVec.ofNat 32 c }

/-- The state that CONFIG leaves when the host sends `rest` after it: four transactions on. -/
def configured (s : State) (src : Word) (n : Nat) (dst : DWord) (c : Nat) (rest : List Input) : State :=
  { s with dev.bank := configuredBank s.dev.bank src n dst c, inputs := rest, place := s.place + 4, response := none }

/-- The inputs in which the host presents requests (R69). -/
def busInputs (rs : List Request) : List Input := rs.map fun r => .bus (assemble r)

/-- CONFIG's four requests only store, each in a register of its own (R70). -/
theorem run_config {k : Nat} {s : State} {src : Word} {n : Nat} {dst : DWord} {c : Nat} {rest : List Input}
    (hrun : s.dev.halted = none) (hinputs : s.inputs = busInputs (Pseudo.config src n dst c).expand ++ rest) :
    Host.Core.run core (k + 4) s = Host.Core.run core k (configured s src n dst c rest) := by
  have hsrc (u : State) : exec (decodeWrite Config.offSrcAddr .w4 (src.setWidth 64)) u =
      writeStores { u.dev.bank with srcAddr := src } u := by
    simp [exec, execWrSrcAddr, low32_busValue_w4]
  have hlen (u : State) : exec (decodeWrite Config.offLen .w4 (BitVec.ofNat 64 (n - 1))) u =
      writeStores { u.dev.bank with len := BitVec.ofNat 32 (n - 1) } u := by
    simp [exec, execWrLen, low32_busValue_w4]
  have hdst (u : State) : exec (decodeWrite Config.offDstAddr .w8 dst) u =
      writeStores { u.dev.bank with dstAddr := dst } u := by
    simp [decodeDstWrite, exec, execWrDstAddrW8]
  have hcontrols (u : State) : exec (decodeWrite Config.offControls .w4 (BitVec.ofNat 64 c)) u =
      writeStores { u.dev.bank with controls := BitVec.ofNat 32 c } u := by
    simp [exec, execWrControls, low32_busValue_w4]
  refine Eq.trans (run_of_storeReq (fun b => { b with srcAddr := src }) rfl ⟨hrun, hinputs⟩ hsrc) ?_
  refine Eq.trans (run_of_storeReq (fun b => { b with len := BitVec.ofNat 32 (n - 1) }) rfl ⟨hrun, rfl⟩ hlen) ?_
  refine Eq.trans (run_of_storeReq (fun b => { b with dstAddr := dst }) rfl ⟨hrun, rfl⟩ hdst) ?_
  exact run_of_storeReq (fun b => { b with controls := BitVec.ofNat 32 c }) rfl ⟨hrun, rfl⟩ hcontrols

/-- CONTROLS[7:0] holds c whole, so the chunk size is c under every zero-chunk policy (R98). -/
theorem effectiveStep_configuredBank {c : Nat} (hc : 1 ≤ c) (hc255 : c ≤ 255) (p : Params) (b : Bank) (src : Word)
    (n : Nat) (dst : DWord) : effectiveStep p (configuredBank b src n dst c) = c := by
  have hfield : ((BitVec.ofNat 32 c).extractLsb' 0 8).toNat = c := by
    simp only [BitVec.extractLsb'_toNat, BitVec.toNat_ofNat, Nat.shiftRight_zero]
    omega
  have hne : (BitVec.ofNat 32 c).extractLsb' 0 8 ≠ 0#8 := fun h => by
    have h0 : c = 0 := hfield.symm.trans (congrArg BitVec.toNat h)
    omega
  rw [effectiveStep, configuredBank, if_neg hne, hfield]

/-- LEN holds n - 1 whole, up to n = 2^32, and the engine adds 1 without wrapping (R98, I-6). -/
theorem transferLength_configuredBank {n : Nat} (hn : 1 ≤ n) (hn32 : n ≤ 2 ^ 32) (b : Bank) (src : Word)
    (dst : DWord) (c : Nat) : transferLength (configuredBank b src n dst c) = n := by
  simp only [transferLength, configuredBank, BitVec.toNat_ofNat]
  omega

/-- Memory after a transfer is the recurrence of R102. -/
theorem readByte_transferred {step : Nat} (hs : 1 ≤ step) (h255 : step ≤ 255) (s : State) (a : Addr) :
    (transferred step s).mem.readByte a =
      memoryAfter (srcAbs s.params s.dev.bank) (dstCur s.dev.bank) (chunkSizes (transferLength s.dev.bank) step)
        s.mem.readByte a := by
  have hn : 1 ≤ transferLength s.dev.bank := Nat.le_add_left 1 _
  refine readByte_copyChunks _ _ _ (fun k hk => ?_) s a
  have hle := chunkSizes_le step hs _ hn k hk
  omega

/-- TRIGGER, where its transfer runs with chunk size k. -/
theorem step_of_trigger {s : State} {k : Nat} {rest : List Input} (hrun : s.dev.halted = none)
    (hinputs : s.inputs = busInputs Pseudo.trigger.expand ++ rest) (hstep : effectiveStep s.params s.dev.bank = k)
    (hruns : TransferRuns s.params s.dev.bank) :
    step s = .next (finishStart (transferred k (startStored .w4 1#64 (takeTransaction rest s)))) := by
  have hp : Pending s (assemble (wrReq .w4 Config.offStart 1#64)) rest := ⟨hrun, hinputs⟩
  have hbit : (1#64).getLsbD 0 = true := by decide
  rw [step_of_wrReq rfl hp, decodeWrite_offStart, ← hstep]
  exact execWrStart_of_runs (w := .w4) (s := takeTransaction rest s) hbit hruns

/-- The state in which the transfer of O51 begins. -/
def triggered (s : State) (src : Word) (n : Nat) (dst : DWord) (c : Nat) : State :=
  startStored .w4 1#64 (takeTransaction [] (configured s src n dst c (busInputs Pseudo.trigger.expand)))

/-- Settles O51: CONFIG leaves `configured`, and there the trigger's transfer runs from the operands it was given. -/
theorem configuredTransferRunsToCompletion : Obligations.ConfiguredTransferRunsToCompletion := by
  intro s src n dst c hrun hn hn32 hc hc255 hsrc hdst
  have hstep := effectiveStep_configuredBank hc hc255 s.params s.dev.bank src n dst
  have hlen := transferLength_configuredBank hn hn32 s.dev.bank src dst c
  have hchunk : firstChunk s.params (configuredBank s.dev.bank src n dst c) = min c n := by
    rw [firstChunk, hstep, ← transferLength, hlen]
  have hruns : TransferRuns s.params (configuredBank s.dev.bank src n dst c) := by
    refine ⟨hstep.symm ▸ hc, ?_⟩
    rw [TransferFits, hchunk]
    exact ⟨hsrc, hdst⟩
  have hconfig : Host.Core.run core 5
      (presentRequests ((Pseudo.config src n dst c).expand ++ Pseudo.trigger.expand) { s with inputs := [] }) =
      Host.Core.run core 1 (configured s src n dst c (busInputs Pseudo.trigger.expand)) := run_config hrun rfl
  have htrigger : step (configured s src n dst c (busInputs Pseudo.trigger.expand)) =
      .next (finishStart (transferred c (triggered s src n dst c))) := step_of_trigger hrun rfl hstep hruns
  have hlen' : transferLength (triggered s src n dst c).dev.bank = n := hlen
  obtain ⟨hdev, _, hinputs, hplace, _⟩ := transferred_frame c (triggered s src n dst c)
  refine ⟨_, hconfig.trans (run_succ (M := core) htrigger 0), hinputs, hplace, ?_, fun a => ?_⟩
  · rw [finishStart_bank, hdev]
    rfl
  · rw [finishStart_mem, readByte_transferred hc hc255, hlen']
    rfl

end Sys2Proof.Machine

/-! PROOFS. The family 40_register_read.md: what each read hands back, the read at an undefined offset, and the events
that a step appends to the log. -/

namespace Sys2Proof.Machine

/-! ## A Read at an undefined offset (R82) -/

/-- A pending Read of an admitted width is the read at its offset. -/
theorem step_of_read {s : State} {t : Txn} {rest : List Input} (hp : Pending s t rest) (hread : t.isRead = true)
    (hw : WidthAdmitted s t) :
    step s = exec (decodeRead (offsetField t.descriptor) t.width) (takeTransaction rest s) := by
  rw [step_of_pending hp, decode_of_read hread hw]

/-- The offsets that are none of the nine listed by R60 are the undefined ones (R63). -/
theorem undefinedOffset_of_not_mem {off : Offset} (h : off ∉ Config.definedOffsets) : undefinedOffset off = true := by
  simpa [undefinedOffset] using h

/-- Settles O14: there the decoder answers RD.UNDEFINED, which logs and hands back 0. -/
theorem readAtAnUndefinedOffset : Obligations.ReadAtAnUndefinedOffset := by
  refine ⟨fun _ _ _ => rfl, fun s t rest hp hread hw hoff => ?_⟩
  rw [step_of_read hp hread hw, decodeRead_undefined (undefinedOffset_of_not_mem hoff)]
  rfl

/-! ## The events that a step logs (R82, R95, R113) -/

/-- Transaction `t`, performed in `s`, is one of the three that log, and `e` is its event with the operands of R115. -/
def Logs (s : State) (t : Txn) (e : LogEvent) : Prop :=
  (t.isRead = true ∧ undefinedOffset (offsetField t.descriptor) = true ∧
    e = .protocolViolationRead (offsetField t.descriptor) t.width) ∨
  (t.isWrite = true ∧ undefinedOffset (offsetField t.descriptor) = true ∧
    e = .protocolViolationWrite (offsetField t.descriptor) t.width (busValue t.width t.data)) ∨
  (t.isTrigger = true ∧ s.params.zeroChunk = .reject ∧ effectiveStep s.params s.dev.bank = 0 ∧
    e = .zeroChunkRejected ((t.data.setWidth (8 * t.width.bytes)).setWidth 32) s.dev.bank.controls)

/-- What a 32-bit register takes of a bus value is cut from the access's own bits (R59, R62). -/
theorem low32_busValue_eq (w : Width) (value : DWord) :
    low32 (busValue w value) = (value.setWidth (8 * w.bytes)).setWidth 32 :=
  BitVec.setWidth_setWidth_of_le _ (by decide)

/-- A completed START write logs nothing, unless it is a trigger whose zero chunk policy `reject` turns away (R99). -/
theorem execWrStart_log_cases {w : Width} {value : DWord} {s u : State} (h : execWrStart w value s = .next u) :
    u.log = s.log ∨
    (value.getLsbD 0 = true ∧ s.params.zeroChunk = .reject ∧ effectiveStep s.params s.dev.bank = 0 ∧
      u.log = s.log ++ [.zeroChunkRejected (low32 (busValue w value)) s.dev.bank.controls]) := by
  rcases execWrStart_next h with ⟨_, rfl⟩ | ⟨hv, h0, hreject, rfl⟩ | ⟨_, _, rfl⟩
  · exact .inl rfl
  · exact .inr ⟨hv, hreject, h0, rfl⟩
  · obtain ⟨-, -, -, -, -, hlog, -⟩ :=
      transferred_frame (effectiveStep s.params s.dev.bank) (startStored w value s)
    exact .inl hlog

/-- A completed transaction keeps the log, or appends the one event that is its own. -/
theorem Did.log_cases {s u : State} {t : Txn} (h : Did s t u) :
    u.log = s.log ∨ ∃ e, u.log = s.log ++ [e] ∧ Logs s t e := by
  cases h with
  | read _ _ e | store _ _ _ _ _ _ e | irqEn _ _ e | irqSta _ _ e | reset _ _ e =>
    subst e
    exact .inl rfl
  | readUndefined hread ho e =>
    subst e
    exact .inr ⟨_, rfl, .inl ⟨hread, ho, rfl⟩⟩
  | writeUndefined hwrite ho e =>
    subst e
    exact .inr ⟨_, rfl, .inr (.inl ⟨hwrite, ho, rfl⟩)⟩
  | start hwrite hoff e =>
    refine (execWrStart_log_cases e).imp_right fun ⟨hv, hreject, h0, hlog⟩ => ?_
    have htrigger : t.isTrigger = true := by
      rw [isTrigger_of_write hwrite, hoff, hv]
      rfl
    rw [low32_busValue_eq] at hlog
    exact ⟨_, hlog, .inr (.inr ⟨htrigger, hreject, h0, rfl⟩)⟩

/-- Settles O46: an idle step and an agent's store log nothing; taking a transaction changes neither the log nor
anything that `Logs` reads. -/
theorem eachStepLogsAtMostOneEvent : Obligations.EachStepLogsAtMostOneEvent := by
  intro s u h
  obtain ⟨-, ⟨_, rfl⟩ | ⟨a, b, rest, _, rfl⟩ | ⟨t, rest, hp, hdid⟩⟩ := step_did h
  · exact .inl rfl
  · exact .inl rfl
  · exact hdid.log_cases.imp_right fun ⟨e, hlog, hlogs⟩ => ⟨t, rest, e, hp, hlog, hlogs⟩

/-! ## The register reads (R71 to R81) -/

/-- A Read whose descriptor is made of its fields decodes by its offset, whatever is on the data lane. -/
theorem decode_read {p : NarrowAccess} {w : Width} (h : admitted p w = true) (x : DWord) (off : Offset) :
    decode p ⟨busDescriptor w false off, x⟩ = decodeRead off w :=
  decode_readWord x rfl h

/-- Settles O11: the twelve descriptors are those of the six offsets at widths 4 and 8, and each meaning hands back its
register. -/
theorem readsReturnTheStoredWord : Obligations.ReadsReturnTheStoredWord := by
  refine ⟨fun p x => ?_, fun _ _ => ⟨rfl, rfl, rfl, rfl, rfl, rfl⟩⟩
  have h4 := decode_read (admitted_w4 p) x
  have h8 := decode_read (admitted_w8 p) x
  exact ⟨h4 Config.offStart, h8 Config.offStart, h4 Config.offControls, h8 Config.offControls,
    h4 Config.offSrcAddr, h8 Config.offSrcAddr, h4 Config.offLen, h8 Config.offLen,
    h4 Config.offSettings, h8 Config.offSettings, h4 Config.offIrqEn, h8 Config.offIrqEn⟩

/-- Settles O12: at DST_ADDR the width of the descriptor picks the view (R61), and each view's meaning hands back its
part. -/
theorem readsOfTheDestinationViews : Obligations.ReadsOfTheDestinationViews := by
  refine ⟨fun p x => ?_, fun _ _ => ⟨rfl, rfl, rfl, rfl⟩⟩
  have h4 := decode_read (admitted_w4 p) x
  have h8 := decode_read (admitted_w8 p) x
  have hnarrow (w : Width) := decode_read (admitted_literal w) x
  exact ⟨h4 Config.offDstAddr, h8 Config.offDstAddr, hnarrow .w1 Config.offDstAddr, hnarrow .w2 Config.offDstAddr,
    h4 Config.offDstAddrHi, h8 Config.offDstAddrHi⟩

/-- Bits 63:7 of a zero-extended word are bits 31:7 of the word. -/
theorem zext64_top (r : Word) : (zext64 r).extractLsb' 7 57 = (r.extractLsb' 7 25).setWidth 57 := by
  apply BitVec.eq_of_getLsbD_eq
  intro i hi
  by_cases h : i < 25
  · simp [zext64, h, hi, show 7 + i < 64 by omega]
  · have hhigh : r.getLsbD (7 + i) = false := BitVec.getLsbD_of_ge r _ (by omega)
    simp [zext64, h, hhigh]

/-- The low half of a zero-extended word is the word. -/
theorem low32_zext64 (r : Word) : low32 (zext64 r) = r := by
  rw [low32, zext64, BitVec.setWidth_setWidth_of_le _ (by decide), BitVec.setWidth_eq]

/-- Settles O13: a legal status has no bit above bit 6 and is not 0x40, and zero-extension changes neither. -/
theorem readOfTheStatus : Obligations.ReadOfTheStatus := by
  refine ⟨fun p x => ⟨decode_read (admitted_w4 p) x Config.offIrqSta, decode_read (admitted_w8 p) x Config.offIrqSta⟩,
    fun s _ => ⟨_, zext64 s.dev.bank.irqSta, rfl, rfl, rfl, fun ⟨htop, hne⟩ => ⟨?_, fun hpending => hne ?_⟩⟩⟩
  · rw [zext64_top, htop]
    rfl
  · rw [← low32_zext64 s.dev.bank.irqSta, hpending]
    rfl

end Sys2Proof.Machine

/-! PROOFS. The family 41_register_write.md: what each write stores and leaves unchanged, the write at an undefined offset,
the read of a register after its write, and the START write with and without its trigger. -/

namespace Sys2Proof.Machine

/-! ## The encodings of the register writes (R57, R58) -/

/-- A Write whose descriptor is made of its fields decodes by its offset. -/
theorem decode_write {p : NarrowAccess} {w : Width} (h : admitted p w = true) (x : DWord) (off : Offset) :
    decode p ⟨busDescriptor w true off, x⟩ = decodeWrite off w x :=
  decode_writeWord x rfl h

/-! ## A Write at an undefined offset (R95) -/

/-- A pending Write of an admitted width is the write at its offset. -/
theorem step_of_write {s : State} {t : Txn} {rest : List Input} (hp : Pending s t rest) (hwrite : t.isWrite = true)
    (hw : WidthAdmitted s t) :
    step s = exec (decodeWrite (offsetField t.descriptor) t.width t.data) (takeTransaction rest s) := by
  rw [step_of_pending hp, decode_of_write hwrite hw]

/-- Settles O21: there the decoder answers WR.UNDEFINED, which logs the bus value and hands nothing back. -/
theorem writeAtAnUndefinedOffset : Obligations.WriteAtAnUndefinedOffset := by
  refine ⟨fun _ _ _ _ => rfl, fun s t rest hp hwrite hw hoff => ?_⟩
  rw [step_of_write hp hwrite hw, decodeWrite_undefined (undefinedOffset_of_not_mem hoff)]
  rfl

/-! ## The read after a write (R96) -/

/-- A write that only stores leaves its bank. -/
theorem bank_of_writeStores {b : Bank} {s t : State} (h : writeStores b s = .next t) : t.dev.bank = b := by
  obtain rfl := Host.Outcome.next.inj h
  rfl

/-- The recompute after a store changes nothing of the bank. -/
theorem bank_of_writeStoresAndRecomputes {b : Bank} {s t : State} (h : writeStoresAndRecomputes b s = .next t) :
    t.dev.bank = b := by
  obtain rfl := Host.Outcome.next.inj h
  rfl

/-- A START write that completes leaves its word in START, whatever its trigger did (R85). -/
theorem start_of_execWrStart {w : Width} {value : DWord} {s t : State} (h : execWrStart w value s = .next t) :
    t.dev.bank.start = low32 (busValue w value) := by
  rcases execWrStart_next h with ⟨_, rfl⟩ | ⟨_, _, _, rfl⟩ | ⟨_, _, rfl⟩
  · rfl
  · rfl
  · rw [finishStart_bank, (transferred_frame _ _).1]
    rfl

/-- A register read completes, and what it hands back may be named by any equal value (R71). -/
theorem readReturns_responds {r v : DWord} (h : r = v) (s : State) :
    ∃ u, readReturns r s = .next u ∧ u.response = some v :=
  ⟨_, rfl, congrArg some h⟩

/-- The low view of DST_ADDR reads what was merged into it (R76, R89). -/
@[simp] theorem dstLow_withDstLow (d : DWord) (lo : Word) : dstLow (withDstLow d lo) = lo := by
  rw [withDstLow_eq, dstLow_append]

/-- DST_ADDR_HI reads what replaced the high half (R78, R91). -/
@[simp] theorem dstHigh_withDstHigh (d : DWord) (hi : Word) : dstHigh (withDstHigh d hi) = hi := by
  rw [withDstHigh_eq, dstHigh_append]

/-- Settles O23: each read hands back its part of the bank that the write left, and at widths 4 and 8 the word stored there
is value[31:0]. -/
theorem writeThenReadReturnsTheWord : Obligations.WriteThenReadReturnsTheWord := by
  intro s t w v hw
  have hword : low32 (busValue w v) = v.setWidth 32 := low32_busValue hw v
  refine ⟨fun h => ?_, fun h => ?_, fun h => ?_, fun h => ?_, fun h => ?_, fun h => ?_, fun h => ?_, fun h => ?_,
    fun h => ?_, fun h => ?_⟩ <;> refine readReturns_responds ?_ t
  · rw [start_of_execWrStart h, hword, zext64]
  · rw [bank_of_writeStores h, hword, zext64]
  · rw [bank_of_writeStores h, hword, zext64]
  · rw [bank_of_writeStores h, hword, zext64]
  · rw [bank_of_writeStores h, hword, zext64]
  · rw [bank_of_writeStoresAndRecomputes h, hword, zext64]
  · rw [bank_of_writeStores h, dstLow_withDstLow, low32_busValue_w4, zext64]
  · rw [bank_of_writeStores h, busValue_w8]
  · rw [bank_of_writeStores h, dstHigh_withDstHigh, hword, zext64]
  · rw [bank_of_writeStoresAndRecomputes h, ackStatus_busValue]
    rfl

/-! ## The START write (R85, R103, R104) -/

/-- Completion sets PENDING, so the line follows IRQ_EN[1] alone (R103, R118). -/
theorem lineFn_of_completed (b : Bank) :
    lineFn { b with irqSta := completeStatus b.irqSta } = b.irqEn.getLsbD 1 := by
  simp [lineFn, completeStatus, Config.completionMask, Config.doneEnBit, Config.pendingBit]

/-- The end of a START write drives the line and touches nothing else of the device. -/
theorem finishStart_dev (s : State) : (finishStart s).dev = { s.dev with irqOut := lineFn s.dev.bank } := rfl

/-- Settles O27: the frame of a transfer, and the recompute that ends the write. -/
theorem triggeredTransferCompletes : Obligations.TriggeredTransferCompletes := by
  intro s w value hv hruns
  obtain ⟨hdev, hparams, hinputs, hplace, -, hlog, -⟩ :=
    transferred_frame (effectiveStep s.params s.dev.bank) (startStored w value s)
  refine ⟨_, execWrStart_of_runs hv hruns, ?_, hparams, hinputs, hplace, rfl, hlog⟩
  rw [finishStart_dev, hdev, lineFn_of_completed, startStored, low32_busValue_eq]
  rfl

/-- A START write with bit 0 = 0 stores its word and ends (R85). -/
theorem execWrStart_of_no_trigger {w : Width} {value : DWord} (hv : value.getLsbD 0 = false) (s : State) :
    execWrStart w value s = .next (finishStart (startStored w value s)) := by
  rw [execWrStart_eq, hv, if_neg Bool.false_ne_true]

/-- Settles O26: no trigger leaves the store of START and the recompute. -/
theorem startWriteWithoutTrigger : Obligations.StartWriteWithoutTrigger := by
  refine ⟨fun p x => ⟨decode_write (admitted_w4 p) x Config.offStart, decode_write (admitted_w8 p) x Config.offStart⟩,
    fun s w value hv => ?_⟩
  rw [← low32_busValue_eq]
  exact execWrStart_of_no_trigger hv s

/-! ## The writes that only store (R86 to R92) -/

/-- Settles O17: the eight descriptors are those of the four offsets at widths 4 and 8, and each meaning stores its word. -/
theorem plainWritesStoreTheLowWord : Obligations.PlainWritesStoreTheLowWord := by
  refine ⟨fun p x => ?_, ?_⟩
  · have h4 := decode_write (admitted_w4 p) x
    have h8 := decode_write (admitted_w8 p) x
    exact ⟨h4 Config.offControls, h8 Config.offControls, h4 Config.offSrcAddr, h8 Config.offSrcAddr,
      h4 Config.offLen, h8 Config.offLen, h4 Config.offSettings, h8 Config.offSettings⟩
  · rintro s w value v rfl
    rw [← low32_busValue_eq]
    exact ⟨rfl, rfl, rfl, rfl⟩

/-- A write that only stores, with the new DST_ADDR written in another way. -/
theorem writeStores_dstAddr {s : State} {d d' : DWord} (h : d = d') :
    writeStores { s.dev.bank with dstAddr := d } s = .next { s with
      dev := { s.dev with bank := { s.dev.bank with dstAddr := d' } }, response := none } := by
  rw [h]
  rfl

/-- Settles O18: at DST_ADDR the width of the descriptor picks the view (R61), and a partial write puts its word beside the
half that it keeps. -/
theorem writesOfTheDestinationViews : Obligations.WritesOfTheDestinationViews := by
  refine ⟨fun p x => ?_, fun s w value => ⟨?_, ?_, ?_, ?_⟩⟩
  · have h4 := decode_write (admitted_w4 p) x
    have h8 := decode_write (admitted_w8 p) x
    have hnarrow (w : Width) := decode_write (admitted_literal w) x
    exact ⟨h4 Config.offDstAddr, h8 Config.offDstAddr, hnarrow .w1 Config.offDstAddr, hnarrow .w2 Config.offDstAddr,
      h4 Config.offDstAddrHi, h8 Config.offDstAddrHi⟩
  · have hlow : low32 (busValue .w4 value) = value.extractLsb' 0 32 :=
      (low32_busValue_w4 value).trans (BitVec.setWidth_eq_extractLsb' (by decide))
    exact writeStores_dstAddr ((withDstLow_eq _ _).trans (by rw [hlow, dstHigh]))
  · exact writeStores_dstAddr (busValue_w8 value)
  · exact writeStores_dstAddr rfl
  · exact writeStores_dstAddr ((withDstHigh_eq _ _).trans (by rw [low32_busValue_eq, dstLow]))

/-! ## The writes that recompute the line (R93, R94) -/

/-- Settles O19: the line is computed from the IRQ_EN that was stored. -/
theorem irqEnWriteStoresAndRecomputes : Obligations.IrqEnWriteStoresAndRecomputes := by
  refine ⟨fun p x => ⟨decode_write (admitted_w4 p) x Config.offIrqEn, decode_write (admitted_w8 p) x Config.offIrqEn⟩, ?_⟩
  rintro s w value v rfl
  rw [← low32_busValue_eq]
  rfl

/-- Settles O20: the toggled bits come from value[5:0] at every width, and the line from the status after the collapse. -/
theorem irqStaWriteTogglesAndCollapses : Obligations.IrqStaWriteTogglesAndCollapses := by
  refine ⟨fun p x => ⟨decode_write (admitted_w4 p) x Config.offIrqSta,
    decode_write (admitted_w8 p) x Config.offIrqSta⟩, ?_⟩
  rintro s w value x u rfl rfl
  rw [exec, execWrIrqSta, ackStatus_busValue]
  rfl

end Sys2Proof.Machine

/-! PROOFS. The family 42_transfer_engine.md: the zero-chunk policies, what a transfer makes of memory, and the bits that
have no effect on it. -/

namespace Sys2Proof.Machine

/-! ## A trigger whose chunk size is 0 (R99, R113) -/

/-- Under policy `hang` a zero chunk leaves START written and the device halted (R113). -/
theorem execWrStart_of_hang {w : Width} {value : DWord} {s : State} (hv : value.getLsbD 0 = true)
    (h0 : effectiveStep s.params s.dev.bank = 0) (hz : s.params.zeroChunk = .hang) :
    execWrStart w value s = .fault (.zeroChunkHang ((startStored w value s).halt .zeroChunkHang)) := by
  rcases execWrStart_cases w hv s with ⟨_, _, h⟩ | ⟨_, hne, _⟩ | ⟨h1, _⟩ | ⟨⟨h1, _⟩, _⟩
  · exact h
  · exact absurd hz hne
  · omega
  · omega

/-- Under another policy a chunk size of 0 is turned away with one log event (R99). -/
theorem execWrStart_of_rejected {w : Width} {value : DWord} {s : State} (hv : value.getLsbD 0 = true)
    (h0 : effectiveStep s.params s.dev.bank = 0) (hz : s.params.zeroChunk ≠ .hang) :
    execWrStart w value s = .next (finishStart ((startStored w value s).record
      (.zeroChunkRejected (low32 (busValue w value)) s.dev.bank.controls))) := by
  rcases execWrStart_cases w hv s with ⟨_, hhang, _⟩ | ⟨_, _, h⟩ | ⟨h1, _⟩ | ⟨⟨h1, _⟩, _⟩
  · exact absurd hhang hz
  · exact h
  · omega
  · omega

/-- Where CONTROLS[7:0] is 0, only `clamp1` gives a chunk size, and that is 1 (R99). -/
theorem effectiveStep_of_zero_field {b : Bank} (h : b.controls.extractLsb' 0 8 = 0#8) (p : Params) :
    effectiveStep p b = if p.zeroChunk = .clamp1 then 1 else 0 := if_pos h

/-- In chunks of one byte there are as many as bytes (R101). -/
theorem chunkSizes_one {n : Nat} (hn : 1 ≤ n) : chunkSizes n 1 = List.replicate n 1 := by
  obtain ⟨m, rfl⟩ := Nat.exists_eq_add_of_le' hn
  simp [chunkSizes, chunkCount, List.replicate_succ']

/-- Settles O28: the chunk size is 0 under `hang` and `reject`, and 1 under `clamp1`, where completion is O27 and the
port trace O30. -/
theorem zeroChunkFollowsThePolicy : Obligations.ZeroChunkFollowsThePolicy := by
  rintro s w value v hv hfield rfl
  have hstep := effectiveStep_of_zero_field hfield s.params
  rw [← low32_busValue_eq]
  refine ⟨fun hz => ?_, fun hz => ?_, fun hz hsrc hdst => ?_⟩
  · rw [hz] at hstep
    exact ⟨_, execWrStart_of_hang hv hstep hz, rfl, fun later => haltedDeviceTakesNoStep _ _ rfl⟩
  · rw [hz] at hstep
    exact execWrStart_of_rejected hv hstep (by simp [hz])
  · rw [hz] at hstep
    have hone : effectiveStep s.params s.dev.bank = 1 := hstep
    have hchunk : firstChunk s.params s.dev.bank = 1 := by
      rw [firstChunk, hone]
      omega
    have hruns : TransferRuns s.params s.dev.bank := by
      refine ⟨hone.ge, ?_⟩
      rw [TransferFits, hchunk]
      exact ⟨hsrc, hdst⟩
    obtain ⟨t, hexec, hdev, -, -, -, -, hlog⟩ := triggeredTransferCompletes s w value hv hruns
    obtain ⟨bufs, hport, hsizes, -⟩ := portSeesTheChunkSequence s t w value _ _ _ _ hv hruns hexec rfl rfl rfl rfl
    rw [hone, chunkSizes_one (Nat.le_add_left 1 _)] at hsizes
    exact ⟨t, bufs, hexec, hport, hsizes, by rw [hdev], hlog⟩

/-! ## What a transfer makes of memory (R102) -/

/-- Memory after a triggering START write whose transfer runs is the recurrence of R102. -/
theorem readByte_execWrStart_of_runs {w : Width} {value : DWord} {s t : State} (hv : value.getLsbD 0 = true)
    (hruns : TransferRuns s.params s.dev.bank) (h : execWrStart w value s = .next t) (a : Addr) :
    t.mem.readByte a = memoryAfter (srcAbs s.params s.dev.bank) (dstCur s.dev.bank)
      (chunkSizes (transferLength s.dev.bank) (effectiveStep s.params s.dev.bank)) s.mem.readByte a := by
  obtain rfl := Host.Outcome.next.inj ((execWrStart_of_runs hv hruns).symm.trans h)
  exact readByte_transferred hruns.1 (effectiveStep_le _ _) (startStored w value s) a

/-- Settles O31: START is no operand of the recurrence, so the state in which Run begins gives the one of `s`. -/
theorem memoryFollowsTheChunkRecurrence : Obligations.MemoryFollowsTheChunkRecurrence :=
  fun _ _ _ _ hv hruns h => readByte_execWrStart_of_runs hv hruns h

/-- Chunks that end before an address leave its byte alone. -/
theorem memoryAfter_of_far {src dst a : Addr} {ks : List Nat} :
    (∀ k ∈ ks, k ≤ (a - dst).toNat) → ∀ M : Addr → Byte, memoryAfter src dst ks M a = M a := by
  induction ks with
  | nil => exact fun _ _ => rfl
  | cons k ks ih =>
    intro h M
    obtain ⟨hk, hks⟩ := List.forall_mem_cons.mp h
    exact (ih hks _).trans (if_neg (Nat.not_lt.mpr hk))

/-- Where no chunk reaches the source byte of an address, the address holds that byte once a chunk has covered it: the
last chunk that does copies a byte which is still the one from the beginning. -/
theorem memoryAfter_of_covered {src dst a : Addr} {ks : List Nat} :
    (∀ k ∈ ks, k ≤ (src + (a - dst) - dst).toNat) → (∃ k ∈ ks, (a - dst).toNat < k) →
      ∀ M : Addr → Byte, memoryAfter src dst ks M a = M (src + (a - dst)) := by
  induction ks with
  | nil => simp
  | cons k ks ih =>
    intro hsrc hcov M
    obtain ⟨hk, hks⟩ := List.forall_mem_cons.mp hsrc
    by_cases hlater : ∃ k ∈ ks, (a - dst).toNat < k
    · exact (ih hks hlater _).trans (if_neg (Nat.not_lt.mpr hk))
    · have hhere : (a - dst).toNat < k := by
        obtain ⟨k', hmem, hlt⟩ := hcov
        rcases List.mem_cons.mp hmem with rfl | hmem
        · exact hlt
        · exact absurd ⟨k', hmem, hlt⟩ hlater
      push Not at hlater
      exact (memoryAfter_of_far hlater _).trans (if_pos hhere)

/-- An address outside the K bytes at `base` is at least K bytes past `base` in the wrapping space. -/
theorem le_sub_toNat_of_not_inRange {base a : Addr} {K : Nat} (hfits : base.toNat + K ≤ 2 ^ 64)
    (h : ¬InRange base K a) : K ≤ (a - base).toNat := by
  unfold InRange at h
  have ha := a.isLt
  rw [BitVec.toNat_sub]
  omega

/-- A byte of one of two disjoint ranges lies outside the other. -/
theorem not_inRange_of_disjoint {x y : Addr} {K j : Nat} (hdisj : RangesDisjoint x y K) (hfits : x.toNat + K ≤ 2 ^ 64)
    (hj : j < K) : ¬InRange y K (x + BitVec.ofNat 64 j) := by
  have hsum : (x + BitVec.ofNat 64 j).toNat = x.toNat + j := by
    rw [BitVec.toNat_add, BitVec.toNat_ofNat]
    omega
  unfold InRange
  unfold RangesDisjoint at hdisj
  omega

/-- No chunk of a transfer is longer than the first (R100). -/
theorem chunkSizes_le_firstChunk {p : Params} {b : Bank} (hs : 1 ≤ effectiveStep p b) :
    ∀ k ∈ chunkSizes (transferLength b) (effectiveStep p b), k ≤ firstChunk p b :=
  chunkSizes_le _ hs _ (Nat.le_add_left 1 _)

/-- The first chunk is one of the sequence. -/
theorem min_mem_chunkSizes {n s : Nat} (hn : 1 ≤ n) (hs : 1 ≤ s) : min s n ∈ chunkSizes n s := by
  by_cases h : n ≤ s
  · simp [chunkSizes_last hn h, h]
  · rw [chunkSizes_step hs (by omega), Nat.min_eq_left (by omega)]
    exact List.mem_cons_self

/-- Settles O32: without a transfer memory is as it was, and no chunk of a transfer reaches past the first. -/
theorem transferWritesOnlyTheFirstChunksBytes : Obligations.TransferWritesOnlyTheFirstChunksBytes := by
  intro s t w value hv h a ha
  rcases execWrStart_next h with ⟨_, rfl⟩ | ⟨_, _, _, rfl⟩ | ⟨_, hruns, _⟩
  · rfl
  · rfl
  · have ⟨hstep, _, hdst⟩ := hruns
    have hfar := le_sub_toNat_of_not_inRange hdst ha
    rw [readByte_execWrStart_of_runs hv hruns h]
    exact memoryAfter_of_far (fun k hk => (chunkSizes_le_firstChunk hstep k hk).trans hfar) _

/-- Settles O33: the first chunk covers byte j, and no chunk reaches the source. -/
theorem disjointTransferCopiesTheSource : Obligations.DisjointTransferCopiesTheSource := by
  intro s t w value hv hruns h hdisj j hj
  have ⟨hstep, hsrc, hdst⟩ := hruns
  have hdist : dstCur s.dev.bank + BitVec.ofNat 64 j - dstCur s.dev.bank = BitVec.ofNat 64 j := by
    rw [BitVec.add_comm, BitVec.add_sub_cancel]
  have hfar := le_sub_toNat_of_not_inRange hdst (not_inRange_of_disjoint hdisj hsrc hj)
  have hcov : (BitVec.ofNat 64 j).toNat < firstChunk s.params s.dev.bank :=
    (Nat.mod_le _ _).trans_lt hj
  rw [readByte_execWrStart_of_runs hv hruns h, memoryAfter_of_covered, hdist]
  · rw [hdist]
    exact fun k hk => (chunkSizes_le_firstChunk hstep k hk).trans hfar
  · rw [hdist]
    exact ⟨_, min_mem_chunkSizes (Nat.le_add_left 1 _) hstep, hcov⟩

/-! ## The bits that have no effect on a transfer (R108) -/

/-- The state with other words in START, SETTINGS and CONTROLS. -/
def withUninterpreted (a b c : Word) (s : State) : State :=
  s.setBank { s.dev.bank with start := a, settings := b, controls := c }

/-- Chunks neither read nor write the three registers. -/
theorem copyChunks_withUninterpreted (src dst : Addr) (a b c : Word) (ks : List Nat) : ∀ s : State,
    copyChunks src dst ks (withUninterpreted a b c s) = withUninterpreted a b c (copyChunks src dst ks s) := by
  induction ks with
  | nil => exact fun _ => rfl
  | cons k ks ih => exact fun s => ih (copyChunk src dst k s)

/-- A transfer of a given chunk size does not read the three registers, and leaves them as they are. -/
theorem transferred_withUninterpreted (step : Nat) (a b c : Word) (s : State) :
    transferred step (withUninterpreted a b c s) = withUninterpreted a b c (transferred step s) :=
  congrArg signalCompletion (copyChunks_withUninterpreted (srcAbs s.params s.dev.bank) (dstCur s.dev.bank) a b c
    (chunkSizes (transferLength s.dev.bank) step) s)

@[simp] theorem withUninterpreted_params (a b c : Word) (s : State) :
    (withUninterpreted a b c s).params = s.params := rfl

/-- Memory, the port trace, the status and the line are not in the three registers. -/
theorem withUninterpreted_frame (a b c : Word) (s : State) :
    (withUninterpreted a b c s).mem = s.mem ∧ (withUninterpreted a b c s).port = s.port ∧
    (withUninterpreted a b c s).dev.bank.irqSta = s.dev.bank.irqSta ∧
    (withUninterpreted a b c s).dev.irqOut = s.dev.irqOut := ⟨rfl, rfl, rfl, rfl⟩

/-- The line does not follow the three registers either (R118). -/
theorem finishStart_withUninterpreted (a b c : Word) (s : State) :
    finishStart (withUninterpreted a b c s) = withUninterpreted a b c (finishStart s) := rfl

/-- Of CONTROLS, the chunk size reads bits 7:0 alone, and of the rest of the bank nothing (R98, R99). -/
theorem effectiveStep_withUninterpreted (p : Params) (a b : Word) {c : Word} {s : State}
    (hc : c.extractLsb' 0 8 = s.dev.bank.controls.extractLsb' 0 8) :
    effectiveStep p (withUninterpreted a b c s).dev.bank = effectiveStep p s.dev.bank := by
  simp only [effectiveStep, withUninterpreted, setBank_bank, hc]

/-- Run begins, for both triggers, in states that differ in the three registers alone. -/
theorem startStored_withUninterpreted (w : Width) (value value' : DWord) (a b c : Word) (s : State) :
    startStored w value' (withUninterpreted a b c s) =
      withUninterpreted (low32 (busValue w value')) b c (startStored w value s) := rfl

/-- Settles O34: the chunk size is the same for both triggers, so they take the same of the four cases of
`execWrStart_cases`; a transfer leaves states that differ in the three registers alone. -/
theorem uninterpretedBitsDoNotChangeATransfer : Obligations.UninterpretedBitsDoNotChangeATransfer := by
  intro s s' w value value' a b c hs' hc hv hv'
  obtain rfl : s' = withUninterpreted a b c s := hs'
  have hstep := effectiveStep_withUninterpreted s.params a b hc
  have hfirst : firstChunk s.params (withUninterpreted a b c s).dev.bank = firstChunk s.params s.dev.bank :=
    congrArg (min · (transferLength s.dev.bank)) hstep
  have hfits : TransferFits s.params (withUninterpreted a b c s).dev.bank ↔ TransferFits s.params s.dev.bank := by
    rw [TransferFits, hfirst]
    rfl
  rcases execWrStart_cases w hv s with ⟨h0, hz, h⟩ | ⟨h0, hz, h⟩ | ⟨h1, hnot, h⟩ | ⟨⟨h1, hfit⟩, h⟩
  · have h' := execWrStart_of_hang (w := w) (s := withUninterpreted a b c s) hv' (hstep.trans h0) hz
    rw [exec, exec, h, h']
    refine ⟨nofun, nofun, ?_⟩
    rintro _ ⟨⟩
    exact ⟨_, rfl, rfl, rfl⟩
  · have h' := execWrStart_of_rejected (w := w) (s := withUninterpreted a b c s) hv' (hstep.trans h0) hz
    rw [exec, exec, h, h']
    refine ⟨?_, nofun, nofun⟩
    rintro _ ⟨⟩
    exact ⟨_, rfl, by simp [startStored, withUninterpreted, lineFn]⟩
  · have h' := execWrStart_of_not_fits (w := w) (s := withUninterpreted a b c s) hv' (h1.trans_eq hstep.symm)
      (mt hfits.mp hnot)
    rw [withUninterpreted_params, hfirst] at h'
    rw [exec, exec, h, h']
    exact ⟨nofun, fun _ hr => hr, nofun⟩
  · have h' := execWrStart_of_runs (w := w) (s := withUninterpreted a b c s) hv'
      ⟨h1.trans_eq hstep.symm, hfits.mpr hfit⟩
    rw [withUninterpreted_params, hstep, startStored_withUninterpreted w value, transferred_withUninterpreted,
      finishStart_withUninterpreted] at h'
    rw [exec, exec, h, h']
    refine ⟨?_, nofun, nofun⟩
    rintro _ ⟨⟩
    exact ⟨_, rfl, withUninterpreted_frame _ _ _ _⟩

end Sys2Proof.Machine

/-! PROOFS. The family 60_exceptions.md: when the interrupt line is driven and to which level, and the cause code of a
step by the order of conditions. -/

namespace Sys2Proof.Machine

/-! ## The line function (R118) -/

/-- `LineFn`, with the two bit positions of R118 as numerals. -/
theorem lineFn_eq (b : Bank) : lineFn b = (b.irqEn.getLsbD 1 && b.irqSta.getLsbD 6) := rfl

/-- Settles O35: the line is the conjunction of the two bits. -/
theorem lineIsAFunctionOfEnableAndPending : Obligations.LineIsAFunctionOfEnableAndPending := by
  refine ⟨fun b => ?_, fun b b' hen hsta => ?_⟩
  · rw [lineFn_eq, Bool.and_eq_true]
  · rw [lineFn_eq, lineFn_eq, hen, hsta]

/-! ## Which transactions drive the line (R119) -/

/-- The transaction is one of the three writes that end in a recompute (R119). -/
def RecomputesLine (t : Txn) : Prop :=
  t.writesTo 0x000#12 = true ∨ t.writesTo 0x054#12 = true ∨ t.writesTo 0x058#12 = true

theorem writesTo_of_offset {t : Txn} {off : Offset} (hw : t.isWrite = true) (hoff : offsetField t.descriptor = off) :
    t.writesTo off = true := by
  rw [writesTo_eq hw, hoff, beq_self_eq_true]

/-- A transaction at an undefined offset writes to no defined one. -/
theorem writesTo_of_undefined {t : Txn} {off : Offset} (ho : undefinedOffset (offsetField t.descriptor) = true)
    (hoff : undefinedOffset off = false) : t.writesTo off = false := by
  have hne : offsetField t.descriptor ≠ off := by
    rintro rfl
    exact Bool.false_ne_true (hoff.symm.trans ho)
  simp [Txn.writesTo, hne]

theorem not_recomputesLine {t : Txn} (h0 : t.writesTo 0x000#12 = false) (h1 : t.writesTo 0x054#12 = false)
    (h2 : t.writesTo 0x058#12 = false) : ¬RecomputesLine t := by
  simp [RecomputesLine, h0, h1, h2]

theorem not_recomputesLine_of_not_write {t : Txn} (h : t.isWrite = false) : ¬RecomputesLine t :=
  not_recomputesLine (writesTo_of_not_write h _) (writesTo_of_not_write h _) (writesTo_of_not_write h _)

/-- A START write that completes ends in a recompute, whatever its trigger did (R85). -/
theorem irqOut_of_execWrStart {w : Width} {value : DWord} {s u : State} (h : execWrStart w value s = .next u) :
    u.dev.irqOut = lineFn u.dev.bank := by
  rcases execWrStart_next h with ⟨_, rfl⟩ | ⟨_, _, _, rfl⟩ | ⟨_, _, rfl⟩
  · rfl
  · rfl
  · rfl

theorem not_reset_of_write {t : Txn} (h : t.isWrite = true) : t.isReset = false :=
  not_reset_of_bus (not_event_of_write h)

/-- What a completed transaction makes of the line: one of the three writes recomputes it, a reset deasserts it, and any
other transaction keeps it. -/
theorem Did.line_cases {s u : State} {t : Txn} (h : Did s t u) :
    (RecomputesLine t ∧ t.isReset = false ∧ u.dev.irqOut = lineFn u.dev.bank) ∨
    (¬RecomputesLine t ∧ t.isReset = true ∧ u.dev.irqOut = false) ∨
    (¬RecomputesLine t ∧ t.isReset = false ∧ u.dev.irqOut = s.dev.irqOut) := by
  cases h with
  | read hread _ e | readUndefined hread _ e =>
    subst e
    exact .inr (.inr ⟨not_recomputesLine_of_not_write (not_write_of_read hread),
      not_reset_of_bus (not_event_of_read hread), rfl⟩)
  | writeUndefined hw ho e =>
    subst e
    have hkeeps : ¬RecomputesLine t := not_recomputesLine (writesTo_of_undefined ho (by decide))
      (writesTo_of_undefined ho (by decide)) (writesTo_of_undefined ho (by decide))
    exact .inr (.inr ⟨hkeeps, not_reset_of_write hw, rfl⟩)
  | store hw _ h0 h1 h2 _ e =>
    subst e
    exact .inr (.inr ⟨not_recomputesLine h0 h1 h2, not_reset_of_write hw, rfl⟩)
  | irqEn hw hoff e =>
    subst e
    exact .inl ⟨.inr (.inl (writesTo_of_offset hw hoff)), not_reset_of_write hw, rfl⟩
  | irqSta hw hoff e =>
    subst e
    exact .inl ⟨.inr (.inr (writesTo_of_offset hw hoff)), not_reset_of_write hw, rfl⟩
  | reset hreset hw e =>
    subst e
    exact .inr (.inl ⟨not_recomputesLine_of_not_write hw, hreset, rfl⟩)
  | start hw hoff e =>
    exact .inl ⟨.inl (writesTo_of_offset hw hoff), not_reset_of_write hw, irqOut_of_execWrStart e⟩

/-- Settles O36: the three cases of `Did.line_cases` exclude each other, and each is one clause. -/
theorem lineIsDrivenOnlyWhereSaid : Obligations.LineIsDrivenOnlyWhereSaid := by
  intro s u t rest hp h
  rcases (did_of_pending hp h).line_cases with
    ⟨hdrives, hbus, hline⟩ | ⟨hkeeps, hreset, hline⟩ | ⟨hkeeps, hbus, hline⟩
  · exact ⟨fun _ => hline, fun hreset => absurd (hbus.symm.trans hreset) Bool.false_ne_true,
      fun h0 h1 h2 _ => absurd hdrives (not_recomputesLine h0 h1 h2)⟩
  · exact ⟨fun hdrives => absurd hdrives hkeeps, fun _ => hline,
      fun _ _ _ hbus => absurd (hbus.symm.trans hreset) Bool.false_ne_true⟩
  · exact ⟨fun hdrives => absurd hdrives hkeeps, fun hreset => absurd (hbus.symm.trans hreset) Bool.false_ne_true,
      fun _ _ _ _ => hline⟩

/-! ## Masking and unmasking (R121) -/

/-- The low byte of a stored word is that of the data word, at every width. -/
theorem low32_busValue_getLsbD (w : Width) (value : DWord) {i : Nat} (hi : i < 8) :
    (low32 (busValue w value)).getLsbD i = value.getLsbD i := by
  have hbits : i < 8 * w.bytes := by cases w <;> simp only [Width.bytes] <;> omega
  simp [low32, busValue, hbits, show i < 32 by omega, show i < 64 by omega]

/-- An IRQ_EN write gates PENDING by its bit 1, and keeps IRQ_STA (R93, R119). -/
theorem execWrIrqEn_line (w : Width) (value : DWord) (s : State) :
    ∃ t, exec (.wrIrqEn w value) s = .next t ∧
      t.dev.irqOut = (value.getLsbD 1 && s.dev.bank.irqSta.getLsbD 6) ∧ t.dev.bank.irqSta = s.dev.bank.irqSta := by
  refine ⟨_, rfl, ?_, rfl⟩
  rw [respond_irqOut, recompute_irqOut, lineFn_eq, setBank_bank, low32_busValue_getLsbD w value (by decide)]

/-- Completion sets DONE and PENDING (R103). -/
theorem completeStatus_sets_done_and_pending (sta : Word) :
    (completeStatus sta).getLsbD 1 = true ∧ (completeStatus sta).getLsbD 6 = true := by
  simp [completeStatus, Config.completionMask]

/-- Settles O37: two IRQ_EN writes, the second in the state that the first leaves; the status that a transfer leaves
(O27), which IRQ_EN does not gate; and the line after an acknowledge, recomputed from the new status. -/
theorem maskingKeepsTheStatus : Obligations.MaskingKeepsTheStatus := by
  intro s w off on ack hoff hon
  refine ⟨?_, fun v hv hruns => ?_, _, rfl, fun hpending => ?_⟩
  · obtain ⟨t, ht, htline, htsta⟩ := execWrIrqEn_line w off s
    obtain ⟨u, hu, huline, husta⟩ := execWrIrqEn_line w on t
    rw [hoff, Bool.false_and] at htline
    rw [hon, Bool.true_and, htsta] at huline
    exact ⟨t, ht, htline, htsta, u, hu, huline, husta.trans htsta⟩
  · obtain ⟨t, ht, hdev, -⟩ := triggeredTransferCompletes s w v hv hruns
    refine ⟨t, ht, ?_⟩
    rw [hdev]
    exact completeStatus_sets_done_and_pending s.dev.bank.irqSta
  · rw [respond_irqOut, recompute_irqOut, lineFn_eq]
    exact Bool.and_eq_false_imp.mpr fun _ => hpending

/-! ## The cause code of an outcome (R115) -/

/-- A step that logs nothing has code 0. -/
theorem outcomeCode_of_same_log {s u : State} (h : u.log = s.log) : outcomeCode s (.next u) = some 0 := by
  simp [outcomeCode, h]

/-- A step that logs one event has the event's code. -/
theorem outcomeCode_of_logged {s u : State} {e : LogEvent} (h : u.log = s.log ++ [e]) :
    outcomeCode s (.next u) = some e.code := by
  simp [outcomeCode, h]

section PendingTransaction

variable {s : State} {t : Txn} {rest : List Input}

/-- Of the non-bus events only the reset completes (R64). -/
theorem outcomeCode_of_event (hp : Pending s t rest) (hev : evField t.descriptor = true) :
    outcomeCode s (step s) = some (if t.descriptor = 0x8000#16 then 0 else 6) := by
  by_cases hreset : t.descriptor = 0x8000#16
  · rw [if_pos hreset, step_of_pending hp, decode_event hev, if_pos hreset]
    exact outcomeCode_of_same_log rfl
  · obtain ⟨-, -, hrefused⟩ := reservedAndNarrowTransactionsAreRefused
    rw [if_neg hreset, (hrefused s t rest hp).1 hev hreset]
    rfl

/-- An access of a width that is not admitted is refused, whatever its offset (R65). -/
theorem outcomeCode_of_width_not_admitted (hp : Pending s t rest) (hev : evField t.descriptor = false)
    (hw : ¬WidthAdmitted s t) : outcomeCode s (step s) = some 5 := by
  obtain ⟨hnarrow, hliteral⟩ := Classical.not_imp.mp hw
  have hrefuse : s.params.narrowAccess = .refuse := by
    cases h : s.params.narrowAccess with
    | refuse => rfl
    | literal => exact absurd h hliteral
  obtain ⟨-, -, hrefused⟩ := reservedAndNarrowTransactionsAreRefused
  rw [(hrefused s t rest hp).2 hev hnarrow hrefuse]
  rfl

/-- An access at an undefined offset logs its protocol violation (R82, R95). -/
theorem outcomeCode_of_undefined (hp : Pending s t rest) (hev : evField t.descriptor = false)
    (hw : WidthAdmitted s t) (ho : undefinedOffset (offsetField t.descriptor) = true) :
    outcomeCode s (step s) = some (if t.isRead then 1 else 2) := by
  rcases access_cases hev with ⟨hread, _⟩ | ⟨hwrite, _⟩
  · rw [step_of_read hp hread hw, decodeRead_undefined ho, if_pos hread]
    exact outcomeCode_of_logged (e := .protocolViolationRead _ _) rfl
  · have hread : t.isRead ≠ true := fun h => Bool.false_ne_true ((not_write_of_read h).symm.trans hwrite)
    rw [step_of_write hp hwrite hw, decodeWrite_undefined ho, if_neg hread]
    exact outcomeCode_of_logged (e := .protocolViolationWrite _ _ _) rfl

/-- At a defined offset only a trigger with a chunk size of 0 logs an event. -/
theorem not_logs {e : LogEvent} (ho : undefinedOffset (offsetField t.descriptor) = false)
    (hstep : t.isTrigger = true → effectiveStep s.params s.dev.bank ≠ 0) : ¬Logs s t e := by
  rintro (⟨_, hundef, _⟩ | ⟨_, hundef, _⟩ | ⟨htrigger, _, h0, _⟩)
  · exact Bool.false_ne_true (ho.symm.trans hundef)
  · exact Bool.false_ne_true (ho.symm.trans hundef)
  · exact hstep htrigger h0

/-- A transaction at a defined offset that completes has code 0, unless it is a trigger with a chunk size of 0. -/
theorem outcomeCode_of_completes (hp : Pending s t rest) (hc : Completes s t)
    (ho : undefinedOffset (offsetField t.descriptor) = false)
    (hstep : t.isTrigger = true → effectiveStep s.params s.dev.bank ≠ 0) : outcomeCode s (step s) = some 0 := by
  obtain ⟨u, hu⟩ := (stepCompletesExactlyWhenAdmitted s t rest hp).mpr hc
  rw [hu]
  rcases (did_of_pending hp hu).log_cases with hlog | ⟨e, _, hlogs⟩
  · exact outcomeCode_of_same_log hlog
  · exact absurd hlogs (not_logs ho hstep)

/-- A trigger of an admitted width is the START write of its data word, with bit 0 set (R85). -/
theorem step_of_isTrigger (hp : Pending s t rest) (hw : WidthAdmitted s t) (ht : t.isTrigger = true) :
    t.data.getLsbD 0 = true ∧ step s = execWrStart t.width t.data (takeTransaction rest s) := by
  simp only [Txn.isTrigger, Txn.writesTo, Bool.and_eq_true, beq_iff_eq] at ht
  obtain ⟨⟨hwrite, hoff⟩, hv⟩ := ht
  refine ⟨hv, ?_⟩
  rw [step_of_write hp hwrite hw, hoff, decodeWrite_offStart, exec]

/-- A trigger with a chunk size of 0 hangs or is turned away, by the policy (R99, R113). -/
theorem outcomeCode_of_zero_chunk (hp : Pending s t rest) (hw : WidthAdmitted s t) (ht : t.isTrigger = true)
    (h0 : effectiveStep s.params s.dev.bank = 0) :
    outcomeCode s (step s) = some (if s.params.zeroChunk = .hang then 4 else 3) := by
  obtain ⟨hv, hstep⟩ := step_of_isTrigger hp hw ht
  rw [hstep]
  by_cases hz : s.params.zeroChunk = .hang
  · rw [if_pos hz, execWrStart_of_hang (s := takeTransaction rest s) hv h0 hz]
    rfl
  · rw [if_neg hz, execWrStart_of_rejected (s := takeTransaction rest s) hv h0 hz]
    exact outcomeCode_of_logged (e := .zeroChunkRejected _ _) rfl

/-- A trigger whose first chunk passes the top of the address space is refused (R44). -/
theorem outcomeCode_of_not_fits (hp : Pending s t rest) (hw : WidthAdmitted s t) (ht : t.isTrigger = true)
    (h0 : effectiveStep s.params s.dev.bank ≠ 0) (hn : ¬TransferFits s.params s.dev.bank) :
    outcomeCode s (step s) = some 7 := by
  obtain ⟨hv, hstep⟩ := step_of_isTrigger hp hw ht
  rw [hstep, execWrStart_of_not_fits (s := takeTransaction rest s) hv (Nat.one_le_iff_ne_zero.mpr h0) hn]
  rfl

end PendingTransaction

/-- Settles O48: one lemma per condition of R117, in its order; what is left completes without an event. -/
theorem outcomeFollowsThePriorityOfConditions : Obligations.OutcomeFollowsThePriorityOfConditions := by
  intro s t rest hp
  refine ⟨outcomeCode_of_event hp, fun hev => ⟨outcomeCode_of_width_not_admitted hp hev, fun hw =>
    ⟨outcomeCode_of_undefined hp hev hw, fun ho => ?_⟩⟩⟩
  refine ⟨fun hno => ?_, fun ht => ⟨outcomeCode_of_zero_chunk hp hw ht, fun h0 =>
    ⟨fun hfits => ?_, outcomeCode_of_not_fits hp hw ht h0⟩⟩⟩
  · exact outcomeCode_of_completes hp ((completes_bus_iff hev hw).mpr (by simp [hno])) ho (by simp [hno])
  · have hruns : TransferRuns s.params s.dev.bank := ⟨Nat.one_le_iff_ne_zero.mpr h0, hfits⟩
    exact outcomeCode_of_completes hp ((completes_bus_iff hev hw).mpr fun _ => .inr hruns) ho fun _ => h0

end Sys2Proof.Machine

/-! PROOFS. The family 70_reset_and_hazards.md: what the reset entry point does. -/

namespace Sys2Proof.Machine

/-- RESET stores the reset bank, drives the line to false and hands nothing back (R134, decision D10). -/
theorem exec_reset (s : State) :
    exec .reset s = .next (((s.setBank Bank.reset).setLevel false).respond none) := rfl

/-- Settles O53: the reset's word decodes under either policy, and the three updates of `exec_reset` are the record update
of the statement, with the values of `Bank.reset` written out. -/
theorem resetRestoresTheBank : Obligations.ResetRestoresTheBank := by
  refine ⟨decode_resetWord, fun s => ?_⟩
  rw [exec_reset, State.respond, State.setLevel, State.setBank, Bank.reset, Config.controlsReset, Config.lenReset]

end Sys2Proof.Machine
